-- ==== Sys2Proof/Word.lean ====
section
/-! DEFINITION. The two word sizes of the machine and the six stored flags: 00_scope.md R8, R11; 10_state.md R28. -/

namespace Sys2Proof

/-- A register, a memory cell, an opcode or operand byte: 8 bits (R8). -/
abbrev Byte := BitVec 8

/-- An address or the program counter: 16 bits (R8). -/
abbrev Word := BitVec 16

/-- The six stored flags, in the order of the packed byte (10_state.md R28, R29). The reserved bit and
Break hold no state (R30), so they have no field. -/
structure Flags where
  n : Bool
  v : Bool
  d : Bool
  i : Bool
  z : Bool
  c : Bool
  deriving DecidableEq, Repr

end Sys2Proof
end

