-- ==== Sys2Proof/Machine/Bits.lean ====
section
/-! DEFINITION. The bit-field, byte-order and extension helpers of 00_scope.md R10. -/

namespace Sys2Proof

/-- `hi(w) = w[15:8]` (R10). -/
def hi (w : Word) : Byte := w.extractLsb' 8 8

/-- `lo(w) = w[7:0]` (R10). -/
def lo (w : Word) : Byte := w.extractLsb' 0 8

/-- `h:l`, the 16-bit value with high byte `h` and low byte `l` (R10). -/
def join (h l : Byte) : Word := h ++ l

/-- `zext_16(b)` (R10). -/
def zext16 (b : Byte) : Word := b.setWidth 16

/-- `sext_16(b)`: `b` below 0x80, `0xFF00 + b` otherwise (R10). -/
def sext16 (b : Byte) : Word := b.signExtend 16

/-- The address a push or pull reaches for the stack pointer `s`: `0x0100 + S`, always in page 1 (R23). -/
def stackAddr (s : Byte) : Word := join 0x01 s

end Sys2Proof
end

