-- ==== Sys2Proof/Syntax.lean ====
section
/-! DEFINITION. The instructions as syntax. One constructor per mnemonic of spec/opcode_table.json (56 and
`ILL`); a row of the table is a constructor together with the operand form its mode gives it (log 14). The
operand fields are the instruction's own operand bytes (30_encoding.md R81, R83). -/

namespace Sys2Proof

/-- The thirteen mode tags (00_scope.md R15, 30_encoding.md R82). -/
inductive Mode where
  | imp | acc | imm | zp | zpx | zpy | abs | abx | aby | ind | izx | izy | rel
  deriving DecidableEq, Repr

/-- The access class: the handler reads EA, writes it, reads then writes it, or makes no data access there
(00_scope.md R15, 30_encoding.md R85). -/
inductive Access where
  | r | w | rmw | none
  deriving DecidableEq, Repr

/-- An operand in memory, with the bytes that name it (R82, R83). -/
inductive Operand where
  /-- `IMM`: the value itself. -/
  | imm (b : Byte)
  /-- `ZP`: an address in page 0. -/
  | zp (b : Byte)
  /-- `ZPX`: a base in page 0, indexed by X. -/
  | zpx (b : Byte)
  /-- `ZPY`: a base in page 0, indexed by Y. -/
  | zpy (b : Byte)
  /-- `ABS`: a 16-bit address. -/
  | abs (w : Word)
  /-- `ABX`: a 16-bit base, indexed by X. -/
  | abx (w : Word)
  /-- `ABY`: a 16-bit base, indexed by Y. -/
  | aby (w : Word)
  /-- `IZX`: a page-0 pointer base, indexed by X before it is dereferenced. -/
  | izx (b : Byte)
  /-- `IZY`: a page-0 pointer, whose target is indexed by Y. -/
  | izy (b : Byte)
  deriving DecidableEq, Repr

/-- What a shift or rotate works on: the accumulator or a memory byte (R82, 45_incdec_shift.md R198). -/
inductive ShiftOperand where
  | acc
  | mem (o : Operand)
  deriving DecidableEq, Repr

/-- What JMP takes its target from (R82, 46_jump_branch.md R210). -/
inductive JumpOperand where
  /-- `ABS`: the target itself. -/
  | abs (w : Word)
  /-- `IND`: the address of a pointer to the target. -/
  | ind (w : Word)
  deriving DecidableEq, Repr

/-- The instructions (00_scope.md R2; 30_encoding.md R89, R90). Branches carry their offset byte; `ill`
carries the illegal opcode byte. -/
inductive Instr where
  | lda (o : Operand)
  | ldx (o : Operand)
  | ldy (o : Operand)
  | sta (o : Operand)
  | stx (o : Operand)
  | sty (o : Operand)
  | tax
  | tay
  | txa
  | tya
  | tsx
  | txs
  | pha
  | php
  | pla
  | plp
  | and (o : Operand)
  | ora (o : Operand)
  | eor (o : Operand)
  | bit (o : Operand)
  | adc (o : Operand)
  | sbc (o : Operand)
  | cmp (o : Operand)
  | cpx (o : Operand)
  | cpy (o : Operand)
  | inc (o : Operand)
  | dec (o : Operand)
  | inx
  | iny
  | dex
  | dey
  | asl (o : ShiftOperand)
  | lsr (o : ShiftOperand)
  | rol (o : ShiftOperand)
  | ror (o : ShiftOperand)
  | jmp (o : JumpOperand)
  | jsr (w : Word)
  | rts
  | bcc (off : Byte)
  | bcs (off : Byte)
  | bne (off : Byte)
  | beq (off : Byte)
  | bpl (off : Byte)
  | bmi (off : Byte)
  | bvc (off : Byte)
  | bvs (off : Byte)
  | clc
  | cld
  | cli
  | clv
  | sec
  | sed
  | sei
  | brk
  | rti
  | nop
  | ill (op : Byte)
  deriving DecidableEq, Repr

/-- The mode tag of an operand. -/
def Operand.mode : Operand → Mode
  | .imm _ => .imm
  | .zp _ => .zp
  | .zpx _ => .zpx
  | .zpy _ => .zpy
  | .abs _ => .abs
  | .abx _ => .abx
  | .aby _ => .aby
  | .izx _ => .izx
  | .izy _ => .izy

/-- The mode tag of a shift's operand. -/
def ShiftOperand.mode : ShiftOperand → Mode
  | .acc => .acc
  | .mem o => o.mode

/-- The mode tag of JMP's operand. -/
def JumpOperand.mode : JumpOperand → Mode
  | .abs _ => .abs
  | .ind _ => .ind

end Sys2Proof
end

