-- ==== Sys2Proof/WellFormed.lean ====
section
/-! DEFINITION. Which terms are instructions of the machine: the (mnemonic, mode) pairs that 30_encoding.md
R89 lists ("A pair with no entry does not exist") and the illegal bytes of R90. -/

namespace Sys2Proof

/-- The modes of LDA, AND, ORA, EOR, ADC, SBC and CMP (R89). -/
def accumulatorModes : List Mode := [.imm, .zp, .zpx, .abs, .abx, .aby, .izx, .izy]

/-- The modes of STA: those of LDA but immediate (R89). -/
def storeModes : List Mode := [.zp, .zpx, .abs, .abx, .aby, .izx, .izy]

/-- The modes of CPX and CPY (R89). -/
def compareIndexModes : List Mode := [.imm, .zp, .abs]

/-- The memory modes of INC, DEC and the shifts (R89). -/
def modifyModes : List Mode := [.zp, .zpx, .abs, .abx]

/-- The 105 illegal opcode bytes, in the order of R90. -/
def illegalOpcodes : List Byte :=
  [0x02, 0x03, 0x04, 0x07, 0x0B, 0x0C, 0x0F, 0x12, 0x13, 0x14, 0x17, 0x1A, 0x1B, 0x1C, 0x1F, 0x22, 0x23, 0x27]
  ++ [0x2B, 0x2F, 0x32, 0x33, 0x34, 0x37, 0x3A, 0x3B, 0x3C, 0x3F, 0x42, 0x43, 0x44, 0x47, 0x4B, 0x4F]
  ++ [0x52, 0x53, 0x54, 0x57, 0x5A, 0x5B, 0x5C, 0x5F, 0x62, 0x63, 0x64, 0x67, 0x6B, 0x6F, 0x72, 0x73, 0x74]
  ++ [0x77, 0x7A, 0x7B, 0x7C, 0x7F, 0x80, 0x82, 0x83, 0x87, 0x89, 0x8B, 0x8F, 0x92, 0x93, 0x97, 0x9B, 0x9C]
  ++ [0x9E, 0x9F, 0xA3, 0xA7, 0xAB, 0xAF, 0xB2, 0xB3, 0xB7, 0xBB, 0xBF, 0xC2, 0xC3, 0xC7, 0xCB, 0xCF, 0xD2]
  ++ [0xD3, 0xD4, 0xD7, 0xDA, 0xDB, 0xDC, 0xDF, 0xE2, 0xE3, 0xE7, 0xEB, 0xEF, 0xF2, 0xF3, 0xF4, 0xF7, 0xFA]
  ++ [0xFB, 0xFC, 0xFF]

/-- The mode is one the mnemonic has in the map of R89; an illegal byte is one R90 lists. -/
def Instr.wellFormed : Instr → Bool
  | .lda o | .and o | .ora o | .eor o | .adc o | .sbc o | .cmp o => accumulatorModes.contains o.mode
  | .ldx o => [Mode.imm, .zp, .zpy, .abs, .aby].contains o.mode
  | .ldy o => [Mode.imm, .zp, .zpx, .abs, .abx].contains o.mode
  | .sta o => storeModes.contains o.mode
  | .stx o => [Mode.zp, .zpy, .abs].contains o.mode
  | .sty o => [Mode.zp, .zpx, .abs].contains o.mode
  | .bit o => [Mode.zp, .abs].contains o.mode
  | .cpx o | .cpy o => compareIndexModes.contains o.mode
  | .inc o | .dec o => modifyModes.contains o.mode
  | .asl o | .lsr o | .rol o | .ror o => o.mode == .acc || modifyModes.contains o.mode
  | .jmp _ | .jsr _ => true
  | .bcc _ | .bcs _ | .bne _ | .beq _ | .bpl _ | .bmi _ | .bvc _ | .bvs _ => true
  | .tax | .tay | .txa | .tya | .tsx | .txs | .pha | .php | .pla | .plp => true
  | .inx | .iny | .dex | .dey | .rts | .brk | .rti | .nop => true
  | .clc | .cld | .cli | .clv | .sec | .sed | .sei => true
  | .ill op => illegalOpcodes.contains op

end Sys2Proof
end

