-- ==== Sys2Proof/Decode.lean ====
section
/-! DEFINITION. Decoding, total on any bytes, from the opcode map of 30_encoding.md R88; then the encoder,
from the table by mnemonic of R89; then what else a record of the opcode table says of an instruction. -/

namespace Sys2Proof

/-- What one opcode byte selects: an instruction of format F1, F2 or F3 (R81), made from its operand byte or
its little-endian operand word (R83), or the illegal fallback (R84, R90). -/
inductive Entry where
  | f1 (i : Instr)
  | f2 (make : Byte → Instr)
  | f3 (make : Word → Instr)
  | illegal

/-! ### The opcode map, one row of R88 each -/

/-- Opcodes 00 to 0F (R88). -/
def row0 : List Entry :=
  [.f1 .brk, .f2 fun b => .ora (.izx b), .illegal, .illegal,
   .illegal, .f2 fun b => .ora (.zp b), .f2 fun b => .asl (.mem (.zp b)), .illegal,
   .f1 .php, .f2 fun b => .ora (.imm b), .f1 (.asl .acc), .illegal,
   .illegal, .f3 fun w => .ora (.abs w), .f3 fun w => .asl (.mem (.abs w)), .illegal]

/-- Opcodes 10 to 1F (R88). -/
def row1 : List Entry :=
  [.f2 .bpl, .f2 fun b => .ora (.izy b), .illegal, .illegal,
   .illegal, .f2 fun b => .ora (.zpx b), .f2 fun b => .asl (.mem (.zpx b)), .illegal,
   .f1 .clc, .f3 fun w => .ora (.aby w), .illegal, .illegal,
   .illegal, .f3 fun w => .ora (.abx w), .f3 fun w => .asl (.mem (.abx w)), .illegal]

/-- Opcodes 20 to 2F (R88). -/
def row2 : List Entry :=
  [.f3 .jsr, .f2 fun b => .and (.izx b), .illegal, .illegal,
   .f2 fun b => .bit (.zp b), .f2 fun b => .and (.zp b), .f2 fun b => .rol (.mem (.zp b)), .illegal,
   .f1 .plp, .f2 fun b => .and (.imm b), .f1 (.rol .acc), .illegal,
   .f3 fun w => .bit (.abs w), .f3 fun w => .and (.abs w), .f3 fun w => .rol (.mem (.abs w)), .illegal]

/-- Opcodes 30 to 3F (R88). -/
def row3 : List Entry :=
  [.f2 .bmi, .f2 fun b => .and (.izy b), .illegal, .illegal,
   .illegal, .f2 fun b => .and (.zpx b), .f2 fun b => .rol (.mem (.zpx b)), .illegal,
   .f1 .sec, .f3 fun w => .and (.aby w), .illegal, .illegal,
   .illegal, .f3 fun w => .and (.abx w), .f3 fun w => .rol (.mem (.abx w)), .illegal]

/-- Opcodes 40 to 4F (R88). -/
def row4 : List Entry :=
  [.f1 .rti, .f2 fun b => .eor (.izx b), .illegal, .illegal,
   .illegal, .f2 fun b => .eor (.zp b), .f2 fun b => .lsr (.mem (.zp b)), .illegal,
   .f1 .pha, .f2 fun b => .eor (.imm b), .f1 (.lsr .acc), .illegal,
   .f3 fun w => .jmp (.abs w), .f3 fun w => .eor (.abs w), .f3 fun w => .lsr (.mem (.abs w)), .illegal]

/-- Opcodes 50 to 5F (R88). -/
def row5 : List Entry :=
  [.f2 .bvc, .f2 fun b => .eor (.izy b), .illegal, .illegal,
   .illegal, .f2 fun b => .eor (.zpx b), .f2 fun b => .lsr (.mem (.zpx b)), .illegal,
   .f1 .cli, .f3 fun w => .eor (.aby w), .illegal, .illegal,
   .illegal, .f3 fun w => .eor (.abx w), .f3 fun w => .lsr (.mem (.abx w)), .illegal]

/-- Opcodes 60 to 6F (R88). -/
def row6 : List Entry :=
  [.f1 .rts, .f2 fun b => .adc (.izx b), .illegal, .illegal,
   .illegal, .f2 fun b => .adc (.zp b), .f2 fun b => .ror (.mem (.zp b)), .illegal,
   .f1 .pla, .f2 fun b => .adc (.imm b), .f1 (.ror .acc), .illegal,
   .f3 fun w => .jmp (.ind w), .f3 fun w => .adc (.abs w), .f3 fun w => .ror (.mem (.abs w)), .illegal]

/-- Opcodes 70 to 7F (R88). -/
def row7 : List Entry :=
  [.f2 .bvs, .f2 fun b => .adc (.izy b), .illegal, .illegal,
   .illegal, .f2 fun b => .adc (.zpx b), .f2 fun b => .ror (.mem (.zpx b)), .illegal,
   .f1 .sei, .f3 fun w => .adc (.aby w), .illegal, .illegal,
   .illegal, .f3 fun w => .adc (.abx w), .f3 fun w => .ror (.mem (.abx w)), .illegal]

/-- Opcodes 80 to 8F (R88). -/
def row8 : List Entry :=
  [.illegal, .f2 fun b => .sta (.izx b), .illegal, .illegal,
   .f2 fun b => .sty (.zp b), .f2 fun b => .sta (.zp b), .f2 fun b => .stx (.zp b), .illegal,
   .f1 .dey, .illegal, .f1 .txa, .illegal,
   .f3 fun w => .sty (.abs w), .f3 fun w => .sta (.abs w), .f3 fun w => .stx (.abs w), .illegal]

/-- Opcodes 90 to 9F (R88). -/
def row9 : List Entry :=
  [.f2 .bcc, .f2 fun b => .sta (.izy b), .illegal, .illegal,
   .f2 fun b => .sty (.zpx b), .f2 fun b => .sta (.zpx b), .f2 fun b => .stx (.zpy b), .illegal,
   .f1 .tya, .f3 fun w => .sta (.aby w), .f1 .txs, .illegal,
   .illegal, .f3 fun w => .sta (.abx w), .illegal, .illegal]

/-- Opcodes A0 to AF (R88). -/
def rowA : List Entry :=
  [.f2 fun b => .ldy (.imm b), .f2 fun b => .lda (.izx b), .f2 fun b => .ldx (.imm b), .illegal,
   .f2 fun b => .ldy (.zp b), .f2 fun b => .lda (.zp b), .f2 fun b => .ldx (.zp b), .illegal,
   .f1 .tay, .f2 fun b => .lda (.imm b), .f1 .tax, .illegal,
   .f3 fun w => .ldy (.abs w), .f3 fun w => .lda (.abs w), .f3 fun w => .ldx (.abs w), .illegal]

/-- Opcodes B0 to BF (R88). -/
def rowB : List Entry :=
  [.f2 .bcs, .f2 fun b => .lda (.izy b), .illegal, .illegal,
   .f2 fun b => .ldy (.zpx b), .f2 fun b => .lda (.zpx b), .f2 fun b => .ldx (.zpy b), .illegal,
   .f1 .clv, .f3 fun w => .lda (.aby w), .f1 .tsx, .illegal,
   .f3 fun w => .ldy (.abx w), .f3 fun w => .lda (.abx w), .f3 fun w => .ldx (.aby w), .illegal]

/-- Opcodes C0 to CF (R88). -/
def rowC : List Entry :=
  [.f2 fun b => .cpy (.imm b), .f2 fun b => .cmp (.izx b), .illegal, .illegal,
   .f2 fun b => .cpy (.zp b), .f2 fun b => .cmp (.zp b), .f2 fun b => .dec (.zp b), .illegal,
   .f1 .iny, .f2 fun b => .cmp (.imm b), .f1 .dex, .illegal,
   .f3 fun w => .cpy (.abs w), .f3 fun w => .cmp (.abs w), .f3 fun w => .dec (.abs w), .illegal]

/-- Opcodes D0 to DF (R88). -/
def rowD : List Entry :=
  [.f2 .bne, .f2 fun b => .cmp (.izy b), .illegal, .illegal,
   .illegal, .f2 fun b => .cmp (.zpx b), .f2 fun b => .dec (.zpx b), .illegal,
   .f1 .cld, .f3 fun w => .cmp (.aby w), .illegal, .illegal,
   .illegal, .f3 fun w => .cmp (.abx w), .f3 fun w => .dec (.abx w), .illegal]

/-- Opcodes E0 to EF (R88). -/
def rowE : List Entry :=
  [.f2 fun b => .cpx (.imm b), .f2 fun b => .sbc (.izx b), .illegal, .illegal,
   .f2 fun b => .cpx (.zp b), .f2 fun b => .sbc (.zp b), .f2 fun b => .inc (.zp b), .illegal,
   .f1 .inx, .f2 fun b => .sbc (.imm b), .f1 .nop, .illegal,
   .f3 fun w => .cpx (.abs w), .f3 fun w => .sbc (.abs w), .f3 fun w => .inc (.abs w), .illegal]

/-- Opcodes F0 to FF (R88). -/
def rowF : List Entry :=
  [.f2 .beq, .f2 fun b => .sbc (.izy b), .illegal, .illegal,
   .illegal, .f2 fun b => .sbc (.zpx b), .f2 fun b => .inc (.zpx b), .illegal,
   .f1 .sed, .f3 fun w => .sbc (.aby w), .illegal, .illegal,
   .illegal, .f3 fun w => .sbc (.abx w), .f3 fun w => .inc (.abx w), .illegal]

/-- The opcode map (R88): row by the high nibble, column by the low nibble. -/
def opcodeMap : List (List Entry) :=
  [row0, row1, row2, row3, row4, row5, row6, row7] ++ [row8, row9, rowA, rowB, rowC, rowD, rowE, rowF]

/-- Look an opcode byte up; every value has an entry (R84). -/
def entry (op : Byte) : Entry :=
  (opcodeMap.getD (op.toNat / 16) []).getD (op.toNat % 16) .illegal

/-- Why a list of bytes is no instruction. No opcode byte is refused (R84); a list can only be too short. -/
inductive DecodeError where
  /-- The list is empty. -/
  | noOpcode
  /-- The list ends before the operand bytes that its first byte calls for. -/
  | operandMissing (op : Byte)
  deriving DecidableEq, Repr

/-- The instruction at the head of a list of bytes, and the bytes after it (R80, R81, R83, R84). -/
def decode : List Byte → Except DecodeError (Instr × List Byte)
  | [] => .error .noOpcode
  | op :: rest =>
    match entry op, rest with
    | .f1 i, _ => .ok (i, rest)
    | .illegal, _ => .ok (.ill op, rest)
    | .f2 make, b1 :: rest' => .ok (make b1, rest')
    | .f3 make, b1 :: b2 :: rest' => .ok (make (join b2 b1), rest')
    | .f2 _, [] => .error (.operandMissing op)
    | .f3 _, [] => .error (.operandMissing op)
    | .f3 _, [_] => .error (.operandMissing op)

/-! ### The encoder -/

/-- The opcode byte of a (mnemonic, mode) pair; none where R89 has no entry. -/
def Instr.opcode : Instr → Option Byte
  | .lda o => match o.mode with
    | .imm => some 0xA9 | .zp => some 0xA5 | .zpx => some 0xB5 | .abs => some 0xAD | .abx => some 0xBD | .aby => some 0xB9 | .izx => some 0xA1 | .izy => some 0xB1 | _ => none
  | .ldx o => match o.mode with
    | .imm => some 0xA2 | .zp => some 0xA6 | .zpy => some 0xB6 | .abs => some 0xAE | .aby => some 0xBE | _ => none
  | .ldy o => match o.mode with
    | .imm => some 0xA0 | .zp => some 0xA4 | .zpx => some 0xB4 | .abs => some 0xAC | .abx => some 0xBC | _ => none
  | .sta o => match o.mode with
    | .zp => some 0x85 | .zpx => some 0x95 | .abs => some 0x8D | .abx => some 0x9D | .aby => some 0x99 | .izx => some 0x81 | .izy => some 0x91 | _ => none
  | .stx o => match o.mode with
    | .zp => some 0x86 | .zpy => some 0x96 | .abs => some 0x8E | _ => none
  | .sty o => match o.mode with
    | .zp => some 0x84 | .zpx => some 0x94 | .abs => some 0x8C | _ => none
  | .tax => some 0xAA
  | .tay => some 0xA8
  | .txa => some 0x8A
  | .tya => some 0x98
  | .tsx => some 0xBA
  | .txs => some 0x9A
  | .pha => some 0x48
  | .php => some 0x08
  | .pla => some 0x68
  | .plp => some 0x28
  | .and o => match o.mode with
    | .imm => some 0x29 | .zp => some 0x25 | .zpx => some 0x35 | .abs => some 0x2D | .abx => some 0x3D | .aby => some 0x39 | .izx => some 0x21 | .izy => some 0x31 | _ => none
  | .ora o => match o.mode with
    | .imm => some 0x09 | .zp => some 0x05 | .zpx => some 0x15 | .abs => some 0x0D | .abx => some 0x1D | .aby => some 0x19 | .izx => some 0x01 | .izy => some 0x11 | _ => none
  | .eor o => match o.mode with
    | .imm => some 0x49 | .zp => some 0x45 | .zpx => some 0x55 | .abs => some 0x4D | .abx => some 0x5D | .aby => some 0x59 | .izx => some 0x41 | .izy => some 0x51 | _ => none
  | .bit o => match o.mode with
    | .zp => some 0x24 | .abs => some 0x2C | _ => none
  | .adc o => match o.mode with
    | .imm => some 0x69 | .zp => some 0x65 | .zpx => some 0x75 | .abs => some 0x6D | .abx => some 0x7D | .aby => some 0x79 | .izx => some 0x61 | .izy => some 0x71 | _ => none
  | .sbc o => match o.mode with
    | .imm => some 0xE9 | .zp => some 0xE5 | .zpx => some 0xF5 | .abs => some 0xED | .abx => some 0xFD | .aby => some 0xF9 | .izx => some 0xE1 | .izy => some 0xF1 | _ => none
  | .cmp o => match o.mode with
    | .imm => some 0xC9 | .zp => some 0xC5 | .zpx => some 0xD5 | .abs => some 0xCD | .abx => some 0xDD | .aby => some 0xD9 | .izx => some 0xC1 | .izy => some 0xD1 | _ => none
  | .cpx o => match o.mode with
    | .imm => some 0xE0 | .zp => some 0xE4 | .abs => some 0xEC | _ => none
  | .cpy o => match o.mode with
    | .imm => some 0xC0 | .zp => some 0xC4 | .abs => some 0xCC | _ => none
  | .inc o => match o.mode with
    | .zp => some 0xE6 | .zpx => some 0xF6 | .abs => some 0xEE | .abx => some 0xFE | _ => none
  | .dec o => match o.mode with
    | .zp => some 0xC6 | .zpx => some 0xD6 | .abs => some 0xCE | .abx => some 0xDE | _ => none
  | .inx => some 0xE8
  | .iny => some 0xC8
  | .dex => some 0xCA
  | .dey => some 0x88
  | .asl o => match o.mode with
    | .acc => some 0x0A | .zp => some 0x06 | .zpx => some 0x16 | .abs => some 0x0E | .abx => some 0x1E | _ => none
  | .lsr o => match o.mode with
    | .acc => some 0x4A | .zp => some 0x46 | .zpx => some 0x56 | .abs => some 0x4E | .abx => some 0x5E | _ => none
  | .rol o => match o.mode with
    | .acc => some 0x2A | .zp => some 0x26 | .zpx => some 0x36 | .abs => some 0x2E | .abx => some 0x3E | _ => none
  | .ror o => match o.mode with
    | .acc => some 0x6A | .zp => some 0x66 | .zpx => some 0x76 | .abs => some 0x6E | .abx => some 0x7E | _ => none
  | .jmp (.abs _) => some 0x4C
  | .jmp (.ind _) => some 0x6C
  | .jsr _ => some 0x20
  | .rts => some 0x60
  | .bcc _ => some 0x90
  | .bcs _ => some 0xB0
  | .bne _ => some 0xD0
  | .beq _ => some 0xF0
  | .bpl _ => some 0x10
  | .bmi _ => some 0x30
  | .bvc _ => some 0x50
  | .bvs _ => some 0x70
  | .clc => some 0x18
  | .cld => some 0xD8
  | .cli => some 0x58
  | .clv => some 0xB8
  | .sec => some 0x38
  | .sed => some 0xF8
  | .sei => some 0x78
  | .brk => some 0x00
  | .rti => some 0x40
  | .nop => some 0xEA
  | .ill op => if illegalOpcodes.contains op then some op else none

/-- The operand bytes, low byte of an address first (R82, R83). -/
def Operand.bytes : Operand → List Byte
  | .imm b | .zp b | .zpx b | .zpy b | .izx b | .izy b => [b]
  | .abs w | .abx w | .aby w => [lo w, hi w]

/-- The operand bytes of a shift: none for the accumulator (R82). -/
def ShiftOperand.bytes : ShiftOperand → List Byte
  | .acc => []
  | .mem o => o.bytes

/-- The operand bytes of JMP (R82). -/
def JumpOperand.bytes : JumpOperand → List Byte
  | .abs w | .ind w => [lo w, hi w]

/-- The operand bytes of an instruction (R81, R83). -/
def Instr.operandBytes : Instr → List Byte
  | .lda o | .ldx o | .ldy o | .sta o | .stx o | .sty o | .and o | .ora o | .eor o | .bit o => o.bytes
  | .adc o | .sbc o | .cmp o | .cpx o | .cpy o | .inc o | .dec o => o.bytes
  | .asl o | .lsr o | .rol o | .ror o => o.bytes
  | .jmp o => o.bytes
  | .jsr w => [lo w, hi w]
  | .bcc b | .bcs b | .bne b | .beq b | .bpl b | .bmi b | .bvc b | .bvs b => [b]
  | .tax | .tay | .txa | .tya | .tsx | .txs | .pha | .php | .pla | .plp => []
  | .inx | .iny | .dex | .dey | .rts | .brk | .rti | .nop => []
  | .clc | .cld | .cli | .clv | .sec | .sed | .sei => []
  | .ill _ => []

/-- The bytes of an instruction; none where it has no encoding (R81, R89). -/
def encode (i : Instr) : Option (List Byte) :=
  i.opcode.map fun op => op :: i.operandBytes

/-! ### The rest of the opcode table's record -/

/-- The mode tag of an instruction; none for an illegal opcode (R82, R88). -/
def Instr.mode : Instr → Option Mode
  | .lda o | .ldx o | .ldy o | .sta o | .stx o | .sty o | .and o | .ora o | .eor o | .bit o => some o.mode
  | .adc o | .sbc o | .cmp o | .cpx o | .cpy o | .inc o | .dec o => some o.mode
  | .asl o | .lsr o | .rol o | .ror o => some o.mode
  | .jmp o => some o.mode
  | .jsr _ => some .abs
  | .bcc _ | .bcs _ | .bne _ | .beq _ | .bpl _ | .bmi _ | .bvc _ | .bvs _ => some .rel
  | .tax | .tay | .txa | .tya | .tsx | .txs | .pha | .php | .pla | .plp => some .imp
  | .inx | .iny | .dex | .dey | .rts | .brk | .rti | .nop => some .imp
  | .clc | .cld | .cli | .clv | .sec | .sed | .sei => some .imp
  | .ill _ => none

/-- Length in bytes by mode tag (R82). -/
def Mode.length : Mode → Nat
  | .imp | .acc => 1
  | .imm | .zp | .zpx | .zpy | .izx | .izy | .rel => 2
  | .abs | .abx | .aby | .ind => 3

/-- Length of an instruction in bytes; an illegal opcode is one byte long (R82). -/
def Instr.length (i : Instr) : Nat := (i.mode.map Mode.length).getD 1

/-- The access class (R85). -/
def Instr.access : Instr → Access
  | .lda _ | .ldx _ | .ldy _ | .and _ | .ora _ | .eor _ | .bit _ => .r
  | .adc _ | .sbc _ | .cmp _ | .cpx _ | .cpy _ => .r
  | .sta _ | .stx _ | .sty _ => .w
  | .inc _ | .dec _ => .rmw
  | .asl o | .lsr o | .rol o | .ror o => if o.mode = .acc then .none else .rmw
  | .jmp _ | .jsr _ => .none
  | .bcc _ | .bcs _ | .bne _ | .beq _ | .bpl _ | .bmi _ | .bvc _ | .bvs _ => .none
  | .tax | .tay | .txa | .tya | .tsx | .txs | .pha | .php | .pla | .plp => .none
  | .inx | .iny | .dex | .dey | .rts | .brk | .rti | .nop => .none
  | .clc | .cld | .cli | .clv | .sec | .sed | .sei => .none
  | .ill _ => .none

/-! ### The opcode table's words -/

/-- The first `n` bytes of a table word, least significant byte first (one byte a memory word, so the second
byte of an instruction is bits 15..8). -/
def tableBytes (nbits w : Nat) : List Byte :=
  let v := w % 2 ^ nbits
  [BitVec.ofNat 8 v, BitVec.ofNat 8 (v / 256), BitVec.ofNat 8 (v / 65536)]

/-- The instruction the decoder reads from a word numbered as spec/opcode_table.json numbers it; every bit
above `nbits` is 0. -/
def decodeTableWord (nbits w : Nat) : Option Instr :=
  match decode (tableBytes nbits w) with
  | .ok (i, _) => some i
  | .error _ => none

end Sys2Proof
end

