-- ==== Sys2Proof/Machine/Flags.lean ====
section
/-! DEFINITION. Every flag computation: the packed byte (10_state.md R29 to R33), the adder and the compare
(44_arithmetic_compare.md R180, R184), the shifts (45_incdec_shift.md R199 to R202). -/

namespace Sys2Proof.Machine

/-- `SetZN(v)` (R33). -/
def setZN (v : Byte) (f : Flags) : Flags := { f with z := v == 0, n := v.getLsbD 7 }

/-- `PackP(b)`: N V 1 b D I Z C, bit 7 down to bit 0 (R31). -/
def packP (b : Bool) (f : Flags) : Byte :=
  BitVec.ofBoolListBE [f.n, f.v, true, b, f.d, f.i, f.z, f.c]

/-- `UnpackP(v)`: bits 5 and 4 are ignored (R32). -/
def unpackP (v : Byte) : Flags :=
  { n := v.getLsbD 7, v := v.getLsbD 6, d := v.getLsbD 3, i := v.getLsbD 2, z := v.getLsbD 1, c := v.getLsbD 0 }

/-- The exact sum of `AddWithCarry`, 0 .. 0x1FF (R180). -/
def exactSum (a v : Byte) (c : Bool) : Nat := a.toNat + v.toNat + c.toNat

/-- The new `A` of `AddWithCarry`: `sum[7:0]` (R180). -/
def addResult (a v : Byte) (c : Bool) : Byte := BitVec.ofNat 8 (exactSum a v c)

/-- The flags of `AddWithCarry`: `C` is `sum[8]`, `V` the sign formula, `Z` and `N` of the result. `D` is not
read (R180, R181). -/
def addFlags (a v : Byte) (f : Flags) : Flags :=
  let r := addResult a v f.c
  setZN r { f with v := ((a ^^^ r) &&& (v ^^^ r) &&& 0x80) != 0, c := 256 ≤ exactSum a v f.c }

/-- The flags of `Compare(R)`: `C` is the unsigned `R >= m`, `Z` and `N` of the difference, `V` kept (R184). -/
def compareFlags (r m : Byte) (f : Flags) : Flags :=
  setZN (r - m) { f with c := m.toNat ≤ r.toNat }

/-- A shift or rotate: the new byte and the new carry from the old byte and the old carry. -/
abbrev Shift := Byte → Bool → Byte × Bool

/-- ASL: bit 7 goes to `C`, 0 enters bit 0 (R199). -/
def shiftAsl : Shift := fun v _ => (v <<< 1, v.getLsbD 7)

/-- LSR: bit 0 goes to `C`, 0 enters bit 7 (R200). -/
def shiftLsr : Shift := fun v _ => (v >>> 1, v.getLsbD 0)

/-- ROL: bit 7 goes to `C`, the old `C` enters bit 0 (R201). -/
def shiftRol : Shift := fun v c => (v <<< 1 ||| (BitVec.ofBool c).setWidth 8, v.getLsbD 7)

/-- ROR: bit 0 goes to `C`, the old `C` enters bit 7 (R202). -/
def shiftRor : Shift := fun v c => (v >>> 1 ||| (BitVec.ofBool c).setWidth 8 <<< 7, v.getLsbD 0)

/-- The flags after a shift with this result: `C` the bit shifted out, `Z` and `N` of the new byte (R198). -/
def shiftFlags (r : Byte × Bool) (f : Flags) : Flags := setZN r.1 { f with c := r.2 }

end Sys2Proof.Machine
end

