-- ==== Sys2Proof/Config.lean ====
section
/-! DEFINITION. What is fixed for one machine (the parameters of 00_scope.md R9) and the free values, which
the spec leaves open: an opaque constant has no value any proof can see. -/

namespace Sys2Proof.Config

/-- `VEC_NMI`: address of the low byte of the NMI vector (R9, R64). -/
def vecNmi : Word := 0xFFFA

/-- `VEC_RESET` (R9, R64). -/
def vecReset : Word := 0xFFFC

/-- `VEC_IRQ`, shared by IRQ and BRK (R9, R64). -/
def vecIrq : Word := 0xFFFE

/-- `RESET_S` (R9, R42). -/
def resetS : Byte := 0xFD

/-- `RESET_FLAGS`: I = 1, the others 0 (R9, R42). -/
def resetFlags : Flags := { n := false, v := false, d := false, i := true, z := false, c := false }

/-- The default of `MEM_SIZE` (R9). The bus's actual size is the field `memSize` of State (log 2). -/
def defaultMemSize : Nat := 65536

/-- `ILLEGAL_EXTRA_CYCLES(op)`: the sub-cycles an illegal opcode spends after its fetch. OPEN, under no law
(R9, R244, U1; log 6). -/
opaque illegalExtraCycles : Byte → Nat

/-- The k-th unspecified byte: A, X, Y after a reset, DL at the start of a step (R39, R42, U4, U9; log 5). -/
opaque freeByte : Nat → Byte

/-- The k-th unspecified address: EA at the start of a step and after a reset (R39, U4; log 5). -/
opaque freeWord : Nat → Word

/-- The k-th unspecified bit: page_cross after a reset (R42; log 5). -/
opaque freeBit : Nat → Bool

end Sys2Proof.Config
end

