-- ==== Sys2Proof/Machine/Memory.lean ====
section
/-! DEFINITION. The memory as plain data: a list of (address, byte) cells in one canonical form, and its two
operations (20_memory.md R50, R52). The bus contract over it (range check, tick) is in Ops.lean. -/

namespace Sys2Proof.Machine

/-- The cells that do not hold `Memory.fill`, addresses strictly rising. -/
abbrev Memory := List Host.Cell

namespace Memory

/-- What an address with no cell reads as: the zero of a zero-filled memory (70_reset_and_hazards.md R286).
DESIGN CHOICE, log 3: the spec leaves memory the host never wrote open (93_implementation_defined.md U10). -/
def fill : Byte := 0x00

/-- The canonical form: addresses strictly rising and 16 bits wide, and no cell equal to what an unlisted
address reads as. -/
abbrev wf (m : Memory) : Prop :=
  m.Pairwise (fun p q => p.1 < q.1) ∧ ∀ cell ∈ m, cell.1 < 65536 ∧ cell.2 ≠ fill

/-- The byte at a numbered address. -/
def get : Memory → Nat → Byte
  | [], _ => fill
  | (k, b) :: rest, a => if k = a then b else get rest a

/-- The cells at other addresses. -/
def without (m : Memory) (a : Nat) : Memory := m.filter fun cell => cell.1 ≠ a

/-- Put a cell before the first one at a higher address. -/
def insertCell : Memory → Nat → Byte → Memory
  | [], a, v => [(a, v)]
  | (k, b) :: rest, a, v => if a < k then (a, v) :: (k, b) :: rest else (k, b) :: insertCell rest a v

/-- The memory with one byte replaced; a byte equal to what an unlisted address reads as has no cell, so the
canonical form is kept. -/
def set (m : Memory) (a : Nat) (v : Byte) : Memory :=
  if v = fill then m.without a else (m.without a).insertCell a v

/-- `M[a]` (R52). -/
def read (m : Memory) (a : Word) : Byte := get m a.toNat

/-- `M[a] <- v`, every other cell unchanged (R52). -/
def write (m : Memory) (a : Word) (v : Byte) : Memory := set m a.toNat v

/-- The little-endian pair at `a` and the next address, the form of a vector (R57, R63). -/
def wordAt (m : Memory) (a : Word) : Word := join (m.read (a + 1)) (m.read a)

/-- `load_image(bytes, origin)`: copy bytes to consecutive addresses, a host action before launch
(70_reset_and_hazards.md R286). DESIGN CHOICE (log 18): an image that runs past 0xFFFF goes on at 0x0000, and no
address is held against `MEM_SIZE`; the spec says nothing of either. -/
def load (m : Memory) : Word → List Byte → Memory
  | _, [] => m
  | a, b :: rest => load (m.write a b) (a + 1) rest

end Memory

end Sys2Proof.Machine
end

