-- ==== Sys2Proof/Machine/State.lean ====
section
/-! DEFINITION. The state of the machine as plain data (10_state.md R20 to R42), the reasons a step stops,
and the state right after reset. INVENTORY.md, State, lists every field with its rule. -/

namespace Sys2Proof.Machine

/-- One sub-cycle as the bus sees it (20_memory.md R71): a read with the byte it returned, a write, or none. -/
inductive BusEvent where
  | read (a : Word) (v : Byte)
  | write (a : Word) (v : Byte)
  | idle
  deriving DecidableEq, Repr

/-- What the environment does at one instruction boundary (60_exceptions.md R254, R272; log 1, log 11). -/
inductive EnvMove where
  /-- The two request lines presented at a boundary; one `Boundary` step (R257). -/
  | lines (nmiReq irqReq : Bool)
  /-- The host applies the core's `reset()` (70_reset_and_hazards.md R280, R281). -/
  | reset
  /-- The host applies the clock's `reset()`: `CYC <- 0` (R272). -/
  | zeroClock
  deriving DecidableEq, Repr

/-- The whole state. -/
structure State where
  /-- `A` (R22). -/
  a : Byte
  /-- `X` (R22). -/
  x : Byte
  /-- `Y` (R22). -/
  y : Byte
  /-- `S` (R23). -/
  sp : Byte
  /-- `PC` (R25). -/
  pc : Word
  /-- `N V D I Z C` (R28). -/
  flags : Flags
  /-- `M` (R20, R50). -/
  mem : Memory
  /-- `MEM_SIZE`: how many bytes the bus backs (00_scope.md R9, R55; log 2). No step writes it. -/
  memSize : Nat
  /-- `CYC` (R36). -/
  cyc : Nat
  /-- `EA`, readable by the host at a boundary (R39). -/
  ea : Word
  /-- `DL`, the byte most recently read from `EA` (R39). -/
  dl : Byte
  /-- `page_cross` (R40). -/
  pageCross : Bool
  /-- The bus history of the latest step, first sub-cycle first (R71; log 7). -/
  bus : List BusEvent
  /-- What the environment does at the coming boundaries, the next one first (log 1). -/
  env : List EnvMove
  /-- How many free values have been drawn (log 5). -/
  draws : Nat
  deriving DecidableEq, Repr

/-- Why the machine stops. -/
inductive Fault where
  /-- `BusRange(a)`: a bus transaction at an address the bus does not back, `a >= MEM_SIZE`. `t` is the state as
  the completed sub-cycles left it: what they wrote stays written, the transaction itself is not performed, and
  nothing after it is done. Raised by `memRead`, `memWrite` and the reset step. SAFE: the spec's own fatal error,
  after which there is no further step and `t` is never final (20_memory.md R55, 60_exceptions.md R252; log 10). -/
  | busRange (a : Word) (t : State)
  deriving DecidableEq, Repr

/-- Why an instruction has no meaning. -/
inductive Refusal where
  /-- An arm of `exec` with no meaning yet. Raised by no arm of this model. SAFE: the machine stops. -/
  | notModelled (mnemonic : String)
  deriving DecidableEq, Repr

/-- How a step ends. -/
abbrev Result := Host.Outcome State Fault Refusal

/-- The machine right after reset (R42, R280) over a memory with nothing listed: `PC` is the word at
`VEC_RESET`. `A`, `X`, `Y` are unspecified in the spec and zero here (DESIGN CHOICE, log 4), and so are `EA`,
`DL` and `page_cross` (DESIGN CHOICE, log 16). -/
def State.reset : State :=
  { a := 0x00, x := 0x00, y := 0x00
    sp := Config.resetS
    pc := Memory.wordAt [] Config.vecReset
    flags := Config.resetFlags
    mem := []
    memSize := Config.defaultMemSize
    cyc := 0
    ea := 0x0000, dl := 0x00, pageCross := false
    bus := [], env := [], draws := 0 }

end Sys2Proof.Machine
end

