-- ==== Sys2Proof/Machine/Ops.lean ====
section
/-! DEFINITION. The named operations every meaning is made of: the sub-cycles of 00_scope.md R12, the stack
(20_memory.md R60, R61), taking an exception and returning from one (60_exceptions.md R260, R266), the reset
step (70_reset_and_hazards.md R280). An operation that can raise `BusRange` answers in `Except Fault`: the state the completed sub-cycles left travels with the fault (R55). -/

namespace Sys2Proof.Machine

/-- End a step: the next state, or the fault that stopped it (R252). -/
def finish : Except Fault State → Result
  | .ok s => .next s
  | .error f => .fault f

/-- `Tick()` with what the sub-cycle did on the bus (R12, R53, R71). -/
def tick (e : BusEvent) (s : State) : State := { s with cyc := s.cyc + 1, bus := s.bus ++ [e] }

/-- `Idle()` (R12). -/
def idle (s : State) : State := tick .idle s

/-- `MemRead(a, 1)` (R12, R52, R55). -/
def memRead (a : Word) (s : State) : Except Fault (Byte × State) :=
  if a.toNat < s.memSize then .ok (s.mem.read a, tick (.read a (s.mem.read a)) s)
  else .error (.busRange a s)

/-- `MemWrite(a, 1, v)` (R12, R52, R55). -/
def memWrite (a : Word) (v : Byte) (s : State) : Except Fault State :=
  if a.toNat < s.memSize then .ok (tick (.write a v) { s with mem := s.mem.write a v })
  else .error (.busRange a s)

/-- `Push(v)`: write, then decrement (R60). -/
def push (v : Byte) (s : State) : Except Fault State := do
  let s ← memWrite (stackAddr s.sp) v s
  return { s with sp := s.sp - 1 }

/-- `Pull()`: increment, then read (R61; 90_conflicts.md C1). -/
def pull (s : State) : Except Fault (Byte × State) :=
  memRead (stackAddr (s.sp + 1)) { s with sp := s.sp + 1 }

/-- `Push(hi(w)); Push(lo(w))` (R62). -/
def pushWord (w : Word) (s : State) : Except Fault State := do
  let s ← push (hi w) s
  push (lo w) s

/-- `l <- Pull(); h <- Pull()`, the word `h:l` (R63). -/
def pullWord (s : State) : Except Fault (Word × State) := do
  let (l, s) ← pull s
  let (h, s) ← pull s
  return (join h l, s)

/-- A vector read: low byte at `a`, high byte at `a + 1` (R63). -/
def readVector (a : Word) (s : State) : Except Fault (Word × State) := do
  let (l, s) ← memRead a s
  let (h, s) ← memRead (a + 1) s
  return (join h l, s)

/-- TAKING AN EXCEPTION, shared by BRK (`brk = true`), IRQ and NMI: push PC high, PC low and `PackP(brk)` with
the `I` of before, set `I`, load `PC` from the vector. `D` and the other flags, `A`, `X` and `Y` stay
(R240, R260). The sub-cycles before the pushes are the caller's. -/
def enterException (brk : Bool) (vec : Word) (s : State) : Except Fault State := do
  let s ← pushWord s.pc s
  let s ← push (packP brk s.flags) s
  let (target, s) ← readVector vec { s with flags := { s.flags with i := true } }
  return { s with pc := target }

/-- RETURNING FROM ONE: pull the flags, then PC low, then PC high, with no increment (R241, R266). -/
def returnFromException (s : State) : Except Fault State := do
  let (p, s) ← pull s
  let (target, s) ← pullWord { s with flags := unpackP p }
  return { s with pc := target }

/-- The start of an instruction step or an interrupt entry: the scratch registers are overwritten with
unspecified values (R39, U4; log 5), and a new bus history begins (R71). -/
def beginStep (s : State) : State :=
  { s with ea := Config.freeWord s.draws, dl := Config.freeByte s.draws, draws := s.draws + 1, bus := [] }

/-- `InterruptEntry(vec)` for IRQ and NMI: two idle sub-cycles, then the entry with Break clear (R260). -/
def interruptEntry (vec : Word) (s : State) : Except Fault State :=
  enterException false vec (idle (idle (beginStep s)))

/-- The reset step: `PC` from the RESET vector, read without ticking; `S`, the flags and `CYC` set; `A`, `X`,
`Y`, `EA`, `DL` and `page_cross` unspecified, afresh at every reset (log 5); memory unchanged; no bus history
(R280, R281, R42). -/
def resetStep (s : State) : Except Fault State :=
  if ¬ Config.vecReset.toNat < s.memSize then .error (.busRange Config.vecReset s)
  else if ¬ (Config.vecReset + 1).toNat < s.memSize then .error (.busRange (Config.vecReset + 1) s)
  else .ok { s with
    a := Config.freeByte s.draws
    x := Config.freeByte (s.draws + 1)
    y := Config.freeByte (s.draws + 2)
    dl := Config.freeByte (s.draws + 3)
    ea := Config.freeWord s.draws
    pageCross := Config.freeBit s.draws
    draws := s.draws + 4
    pc := s.mem.wordAt Config.vecReset
    sp := Config.resetS
    flags := Config.resetFlags
    cyc := 0
    bus := [] }

end Sys2Proof.Machine
end

