-- ==== Sys2Proof/Machine/Operands.lean ====
section
/-! DEFINITION. The addressing-mode resolvers (40_execute_and_addressing.md R104 to R122) and the access to
the operand they name (R121). They run when `PC` is already past the instruction (R25): `step` has read the
operand bytes, one sub-cycle each and right after the opcode, where every resolver reads them first (log 12). -/

namespace Sys2Proof.Machine

/-- The page-cross sub-cycle: always for writing classes, on a carry for reading ones (R116). -/
def pageCrossCycle (cls : Access) (s : State) : State :=
  match cls with
  | .w | .rmw => idle s
  | .r => if s.pageCross then idle s else s
  | .none => s

/-- Index a 16-bit base: `EA` is the sum modulo 65536, `page_cross` the carry out of the low byte
(R111, R112, R115), then the page-cross sub-cycle. -/
def indexBase (cls : Access) (base : Word) (r : Byte) (s : State) : State :=
  pageCrossCycle cls
    { s with pageCross := 256 ≤ (lo base).toNat + r.toNat, ea := base + zext16 r }

/-- Read a 16-bit pointer from page 0, its high byte wrapping inside the page (R119, R120). -/
def readPointer (z : Byte) (s : State) : Except Fault (Word × State) := do
  let (l, s) ← memRead (zext16 z) s
  let (h, s) ← memRead (zext16 (z + 1)) s
  return (join h l, s)

/-- `Resolve(mode, class)`: set `EA` (R106 to R114, R119, R120). For `IMM`, `EA` is the address of the operand
byte, the byte before `PC`. -/
def resolve (cls : Access) (o : Operand) (s : State) : Except Fault State :=
  match o with
  | .imm _ => .ok { s with ea := s.pc - 1 }
  | .zp b => .ok { s with ea := zext16 b }
  | .zpx b => .ok { idle s with ea := zext16 (b + s.x) }
  | .zpy b => .ok { idle s with ea := zext16 (b + s.y) }
  | .abs w => .ok { s with ea := w }
  | .abx w => .ok (indexBase cls w s.x s)
  | .aby w => .ok (indexBase cls w s.y s)
  | .izx b => do
    let (target, s) ← readPointer (b + s.x) (idle s)
    return { s with ea := target }
  | .izy b => do
    let (base, s) ← readPointer b s
    return indexBase cls base s.y s

/-- `m <- MemRead(EA, 1)`; the byte also stands in `DL` (R39, R121). -/
def readEA (s : State) : Except Fault (Byte × State) := do
  let (m, s) ← memRead s.ea s
  return (m, { s with dl := m })

/-- The operand of an instruction of class `R` (R121). For `IMM` the data read is the read of the
instruction's own second byte (R106), which the fetch has made. -/
def readOperand (o : Operand) (s : State) : Except Fault (Byte × State) :=
  match o with
  | .imm b => .ok (b, { s with ea := s.pc - 1, dl := b })
  | o => do
    let s ← resolve .r o s
    readEA s

/-- `MemWrite(EA, 1, v)` of an instruction of class `W` (R121, R144). -/
def writeOperand (o : Operand) (v : Byte) (s : State) : Except Fault State := do
  let s ← resolve .w o s
  memWrite s.ea v s

/-- `ReadModifyWrite(f)`: read, one idle sub-cycle, write back; `f` gives the new byte and the new flags from
the old ones (R191). -/
def modifyOperand (o : Operand) (f : Byte → Flags → Byte × Flags) (s : State) : Except Fault State := do
  let s ← resolve .rmw o s
  let (m, s) ← readEA s
  let s := idle s
  let r := f m s.flags
  let s ← memWrite s.ea r.1 s
  return { s with flags := r.2 }

/-- `Resolve(ABS)` or `Resolve(IND)` for JMP: the pointer's high byte comes from the page of the pointer
(R110, R117, R118). -/
def resolveJump (o : JumpOperand) (s : State) : Except Fault State :=
  match o with
  | .abs w => .ok { s with ea := w }
  | .ind p => do
    let (l, s) ← memRead p s
    let (h, s) ← memRead (join (hi p) (lo p + 1)) s
    return { s with ea := join h l }

/-- `Resolve(REL)`: the target from the address of the next instruction (R122). -/
def resolveRelative (off : Byte) (s : State) : State := { s with ea := s.pc + sext16 off }

end Sys2Proof.Machine
end

