-- ==== Sys2Proof/Machine/Arith.lean ====
section
/-! DEFINITION. Arithmetic and compares: 44_arithmetic_compare.md. -/

namespace Sys2Proof.Machine

/-- `AddWithCarry(v)` (R180). -/
def addWithCarry (v : Byte) (s : State) : State :=
  { s with a := addResult s.a v s.flags.c, flags := addFlags s.a v s.flags }

/-- ADC (R182). -/
def execAdc (o : Operand) (s : State) : Result := finish do
  let (m, s) ← readOperand o s
  return addWithCarry m s

/-- SBC: ADC of the inverted operand (R183). -/
def execSbc (o : Operand) (s : State) : Result := finish do
  let (m, s) ← readOperand o s
  return addWithCarry (m ^^^ 0xFF) s

/-- `Compare(R)`: the flags only (R184). -/
def compareOp (r : Byte) (o : Operand) (s : State) : Except Fault State := do
  let (m, s) ← readOperand o s
  return { s with flags := compareFlags r m s.flags }

/-- CMP (R185). -/
def execCmp (o : Operand) (s : State) : Result := finish (compareOp s.a o s)

/-- CPX (R186). -/
def execCpx (o : Operand) (s : State) : Result := finish (compareOp s.x o s)

/-- CPY (R187). -/
def execCpy (o : Operand) (s : State) : Result := finish (compareOp s.y o s)

end Sys2Proof.Machine
end

