-- ==== Sys2Proof/Machine/IncDecShift.lean ====
section
/-! DEFINITION. Increments, decrements, shifts and rotates: 45_incdec_shift.md. -/

namespace Sys2Proof.Machine

/-- INC (R192). -/
def execInc (o : Operand) (s : State) : Result :=
  finish (modifyOperand o (fun m f => (m + 1, setZN (m + 1) f)) s)

/-- DEC (R193). -/
def execDec (o : Operand) (s : State) : Result :=
  finish (modifyOperand o (fun m f => (m - 1, setZN (m - 1) f)) s)

/-- INX (R194). -/
def execInx (s : State) : Result := .next { idle s with x := s.x + 1, flags := setZN (s.x + 1) s.flags }

/-- INY (R195). -/
def execIny (s : State) : Result := .next { idle s with y := s.y + 1, flags := setZN (s.y + 1) s.flags }

/-- DEX (R196). -/
def execDex (s : State) : Result := .next { idle s with x := s.x - 1, flags := setZN (s.x - 1) s.flags }

/-- DEY (R197). -/
def execDey (s : State) : Result := .next { idle s with y := s.y - 1, flags := setZN (s.y - 1) s.flags }

/-- A shift or rotate: of `A` with one idle sub-cycle, or of a memory byte read and written back (R198). -/
def shiftOp (f : Shift) (o : ShiftOperand) (s : State) : Except Fault State :=
  match o with
  | .acc =>
    let r := f s.a s.flags.c
    .ok { idle s with a := r.1, flags := shiftFlags r s.flags }
  | .mem o => modifyOperand o (fun m fl => ((f m fl.c).1, shiftFlags (f m fl.c) fl)) s

/-- ASL (R199). -/
def execAsl (o : ShiftOperand) (s : State) : Result := finish (shiftOp shiftAsl o s)

/-- LSR (R200). -/
def execLsr (o : ShiftOperand) (s : State) : Result := finish (shiftOp shiftLsr o s)

/-- ROL (R201). -/
def execRol (o : ShiftOperand) (s : State) : Result := finish (shiftOp shiftRol o s)

/-- ROR (R202). -/
def execRor (o : ShiftOperand) (s : State) : Result := finish (shiftOp shiftRor o s)

end Sys2Proof.Machine
end

