-- ==== Sys2Proof/Machine/Jump.lean ====
section
/-! DEFINITION. Jumps, calls, returns and branches: 46_jump_branch.md. -/

namespace Sys2Proof.Machine

/-- JMP (R210). -/
def execJmp (o : JumpOperand) (s : State) : Result := finish do
  let s ← resolveJump o s
  return { s with pc := s.ea }

/-- JSR: pushes the address of its own last byte (R211). -/
def execJsr (w : Word) (s : State) : Result := finish do
  let s ← pushWord (s.pc - 1) (idle { s with ea := w })
  return { s with pc := s.ea }

/-- RTS: the pulled word plus one (R212). -/
def execRts (s : State) : Result := finish do
  let (w, s) ← pullWord (idle (idle s))
  return idle { s with pc := w + 1 }

/-- `Branch(cond)` after the `REL` resolver: one idle sub-cycle if taken, one more if the target is in another
page than the next instruction (R122, R214). -/
def branchIf (cond : Bool) (off : Byte) (s : State) : State :=
  let s := resolveRelative off s
  if cond then
    let s' := idle s
    let s' := if hi s.ea = hi s.pc then s' else idle s'
    { s' with pc := s.ea }
  else s

/-- BCC (R215). -/
def execBcc (off : Byte) (s : State) : Result := .next (branchIf (!s.flags.c) off s)

/-- BCS (R216). -/
def execBcs (off : Byte) (s : State) : Result := .next (branchIf s.flags.c off s)

/-- BNE (R217). -/
def execBne (off : Byte) (s : State) : Result := .next (branchIf (!s.flags.z) off s)

/-- BEQ (R218). -/
def execBeq (off : Byte) (s : State) : Result := .next (branchIf s.flags.z off s)

/-- BPL (R219). -/
def execBpl (off : Byte) (s : State) : Result := .next (branchIf (!s.flags.n) off s)

/-- BMI (R220). -/
def execBmi (off : Byte) (s : State) : Result := .next (branchIf s.flags.n off s)

/-- BVC (R221). -/
def execBvc (off : Byte) (s : State) : Result := .next (branchIf (!s.flags.v) off s)

/-- BVS (R222). -/
def execBvs (off : Byte) (s : State) : Result := .next (branchIf s.flags.v off s)

end Sys2Proof.Machine
end

