-- ==== Sys2Proof/Machine/LoadStore.lean ====
section
/-! DEFINITION. Loads, stores and transfers: 41_load_store_transfer.md. -/

namespace Sys2Proof.Machine

/-! ### Loads: the operand to a register, `Z` and `N` from it (R140) -/

/-- LDA (R141). -/
def execLda (o : Operand) (s : State) : Result := finish do
  let (m, s) ← readOperand o s
  return { s with a := m, flags := setZN m s.flags }

/-- LDX (R142). -/
def execLdx (o : Operand) (s : State) : Result := finish do
  let (m, s) ← readOperand o s
  return { s with x := m, flags := setZN m s.flags }

/-- LDY (R143). -/
def execLdy (o : Operand) (s : State) : Result := finish do
  let (m, s) ← readOperand o s
  return { s with y := m, flags := setZN m s.flags }

/-! ### Stores: a register to the effective address, no flag (R144) -/

/-- STA (R145). -/
def execSta (o : Operand) (s : State) : Result := finish (writeOperand o s.a s)

/-- STX (R146). -/
def execStx (o : Operand) (s : State) : Result := finish (writeOperand o s.x s)

/-- STY (R147). -/
def execSty (o : Operand) (s : State) : Result := finish (writeOperand o s.y s)

/-! ### Transfers: one idle sub-cycle (R105), `Z` and `N` of the destination but for TXS (R148) -/

/-- TAX (R149). -/
def execTax (s : State) : Result := .next { idle s with x := s.a, flags := setZN s.a s.flags }

/-- TAY (R150). -/
def execTay (s : State) : Result := .next { idle s with y := s.a, flags := setZN s.a s.flags }

/-- TXA (R151). -/
def execTxa (s : State) : Result := .next { idle s with a := s.x, flags := setZN s.x s.flags }

/-- TYA (R152). -/
def execTya (s : State) : Result := .next { idle s with a := s.y, flags := setZN s.y s.flags }

/-- TSX (R153). -/
def execTsx (s : State) : Result := .next { idle s with x := s.sp, flags := setZN s.sp s.flags }

/-- TXS (R154): no flag. -/
def execTxs (s : State) : Result := .next { idle s with sp := s.x }

end Sys2Proof.Machine
end

