-- ==== Sys2Proof/Machine/Logic.lean ====
section
/-! DEFINITION. Logical instructions: 43_logical.md. -/

namespace Sys2Proof.Machine

/-- `A <- f(A, m); SetZN(A)` (R170). -/
def logicOp (f : Byte → Byte → Byte) (o : Operand) (s : State) : Except Fault State := do
  let (m, s) ← readOperand o s
  return { s with a := f s.a m, flags := setZN (f s.a m) s.flags }

/-- AND (R171). -/
def execAnd (o : Operand) (s : State) : Result := finish (logicOp (· &&& ·) o s)

/-- ORA (R172). -/
def execOra (o : Operand) (s : State) : Result := finish (logicOp (· ||| ·) o s)

/-- EOR (R173). -/
def execEor (o : Operand) (s : State) : Result := finish (logicOp (· ^^^ ·) o s)

/-- BIT: `Z` from `A & m`, `N` and `V` from bits 7 and 6 of the operand; `A` stays (R174). -/
def execBit (o : Operand) (s : State) : Result := finish do
  let (m, s) ← readOperand o s
  return { s with flags := { s.flags with z := s.a &&& m == 0, n := m.getLsbD 7, v := m.getLsbD 6 } }

end Sys2Proof.Machine
end

