-- ==== Sys2Proof/Machine/Stack.lean ====
section
/-! DEFINITION. Stack instructions: 42_stack.md. Each begins with the idle sub-cycle of its resolver (R105). -/

namespace Sys2Proof.Machine

/-- PHA (R160). -/
def execPha (s : State) : Result := finish (push s.a (idle s))

/-- PHP: the pushed byte has bits 5 and 4 set (R161). -/
def execPhp (s : State) : Result := finish (push (packP true s.flags) (idle s))

/-- PLA: `Z` and `N` from the pulled byte (R162). -/
def execPla (s : State) : Result := finish do
  let (v, s) ← pull (idle (idle s))
  return { s with a := v, flags := setZN v s.flags }

/-- PLP: all six flags from the pulled byte (R163). -/
def execPlp (s : State) : Result := finish do
  let (v, s) ← pull (idle (idle s))
  return { s with flags := unpackP v }

end Sys2Proof.Machine
end

