-- ==== Sys2Proof/Machine/System.lean ====
section
/-! DEFINITION. Flag, system and no-operation instructions, and the illegal opcodes: 47_flags_system_nop.md. -/

namespace Sys2Proof.Machine

/-! ### One flag, one idle sub-cycle (R230) -/

/-- CLC (R231). -/
def execClc (s : State) : Result := .next { idle s with flags := { s.flags with c := false } }

/-- CLD (R232). -/
def execCld (s : State) : Result := .next { idle s with flags := { s.flags with d := false } }

/-- CLI (R233). -/
def execCli (s : State) : Result := .next { idle s with flags := { s.flags with i := false } }

/-- CLV (R234). -/
def execClv (s : State) : Result := .next { idle s with flags := { s.flags with v := false } }

/-- SEC (R235). -/
def execSec (s : State) : Result := .next { idle s with flags := { s.flags with c := true } }

/-- SED (R236). -/
def execSed (s : State) : Result := .next { idle s with flags := { s.flags with d := true } }

/-- SEI (R237). -/
def execSei (s : State) : Result := .next { idle s with flags := { s.flags with i := true } }

/-! ### System -/

/-- BRK: the byte after the opcode is skipped, not read; then the entry with Break set (R240). -/
def execBrk (s : State) : Result := finish do
  let s := idle s
  enterException true Config.vecIrq { s with pc := s.pc + 1 }

/-- RTI (R241). -/
def execRti (s : State) : Result := finish (returnFromException (idle (idle s)))

/-- NOP (R242). -/
def execNop (s : State) : Result := .next (idle s)

/-- An illegal opcode: no effect but an open number of idle sub-cycles (R244; log 6). -/
def execIll (op : Byte) (s : State) : Result :=
  let extra := Config.illegalExtraCycles op
  .next { s with cyc := s.cyc + extra, bus := s.bus ++ List.replicate extra .idle }

end Sys2Proof.Machine
end

