-- ==== Sys2Proof/Machine/Fetch.lean ====
section
/-! DEFINITION. Fetching an instruction's bytes, and what a boundary does: the instruction step or an
interrupt entry (40_execute_and_addressing.md R100, R101; 60_exceptions.md R256, R257). -/

namespace Sys2Proof.Machine

/-- Read the byte at `PC` in one sub-cycle and advance `PC` modulo 65536 (R26, R101). -/
def fetchByte (s : State) : Except Fault (Byte × State) := do
  let (b, s) ← memRead s.pc s
  return (b, { s with pc := s.pc + 1 })

/-- Fetch the opcode byte, look it up, and fetch the operand bytes its format has, low byte first
(R57, R81, R84, R101). -/
def fetchInstr (s : State) : Except Fault (Instr × State) := do
  let (op, s) ← fetchByte s
  match entry op with
  | .f1 i => return (i, s)
  | .f2 make => do
    let (b1, s) ← fetchByte s
    return (make b1, s)
  | .f3 make => do
    let (b1, s) ← fetchByte s
    let (b2, s) ← fetchByte s
    return (make (join b2 b1), s)
  | .illegal => return (.ill op, s)

/-- `InstructionStep()`: the scratch is begun afresh with `page_cross` clear, the bytes are fetched, the
instruction runs (R100). -/
def instructionStep (s : State) : Result :=
  match fetchInstr { beginStep s with pageCross := false } with
  | .ok (i, s') => exec i s'
  | .error f => .fault f

/-- `Boundary(nmi_req, irq_req)`: NMI first, then IRQ if `I` is clear, else the instruction (R257, R264). -/
def boundary (nmiReq irqReq : Bool) (s : State) : Result :=
  if nmiReq then finish (interruptEntry Config.vecNmi s)
  else if irqReq && !s.flags.i then finish (interruptEntry Config.vecIrq s)
  else instructionStep s

/-- One move at a boundary. With no move left the environment requests nothing (log 1). -/
def boundaryMove (s : State) : Result :=
  match s.env with
  | [] => boundary false false s
  | .lines nmiReq irqReq :: rest => boundary nmiReq irqReq { s with env := rest }
  | .reset :: rest => finish (resetStep { s with env := rest })
  | .zeroClock :: rest => .next { s with env := rest, cyc := 0 }

/-- Place bytes at `PC` with no request pending, on a bus that backs them (log 9). -/
def placeAtPc (bytes : List Byte) (s : State) : State :=
  { s with
    mem := s.mem.load s.pc bytes
    env := .lines false false :: s.env
    memSize := if s.pc.toNat + bytes.length ≤ s.memSize then s.memSize else Config.defaultMemSize }

end Sys2Proof.Machine
end

