-- ==== Sys2Proof/Machine/Step.lean ====
section
/-! DEFINITION. One step (00_scope.md R15), and the host's way to place the next instruction. -/

namespace Sys2Proof.Machine

/-- One step: what the environment's next move makes of this boundary (R256, R272). -/
def step (s : State) : Host.Outcome State Fault Refusal := boundaryMove s

/-- `s` with the instruction of a table word stored where `step` fetches next (log 9). -/
def State.withFetchWord (s : State) (nbits w : Nat) : State := placeAtPc (tableBytes nbits w) s

end Sys2Proof.Machine
end

