-- ==== Sys2Proof/Machine/Effective.lean ====
section
/-! DEFINITION. The addressing modes and the bus history in closed form, as the spec's tables give them, for
statements to be written in: the effective address (40_execute_and_addressing.md R106 to R122), the sub-cycles
of every instruction after its fetch (R130), the base cycle counts (70_reset_and_hazards.md R295). `step` does
not use them. All are over the state right after the fetch, when `PC` is past the instruction. -/

namespace Sys2Proof.Machine

/-- The word at a page-0 pointer; the high byte wraps inside the page (R119, R120, R63). -/
def pageZeroWord (m : Memory) (z : Byte) : Word := join (m.read (zext16 (z + 1))) (m.read (zext16 z))

/-- The word at a JMP pointer; the high byte comes from the pointer's own page (R118, R63). -/
def jumpPointerWord (m : Memory) (p : Word) : Word := join (m.read (join (hi p) (lo p + 1))) (m.read p)

/-- The effective address of an operand (R106 to R114, R119, R120). -/
def effAddr (o : Operand) (s : State) : Word :=
  match o with
  | .imm _ => s.pc - 1
  | .zp b => zext16 b
  | .zpx b => zext16 (b + s.x)
  | .zpy b => zext16 (b + s.y)
  | .abs w => w
  | .abx w => w + zext16 s.x
  | .aby w => w + zext16 s.y
  | .izx b => pageZeroWord s.mem (b + s.x)
  | .izy b => pageZeroWord s.mem b + zext16 s.y

/-- Whether adding the index to a 16-bit base carries out of the low byte; none for the other modes
(R111, R115, R116). -/
def carries (o : Operand) (s : State) : Option Bool :=
  match o with
  | .abx w => some (256 ≤ (lo w).toNat + s.x.toNat)
  | .aby w => some (256 ≤ (lo w).toNat + s.y.toNat)
  | .izy b => some (256 ≤ (lo (pageZeroWord s.mem b)).toNat + s.y.toNat)
  | .imm _ | .zp _ | .zpx _ | .zpy _ | .abs _ | .izx _ => none

/-- The byte an instruction of class `R` works on (R106, R121). -/
def operandByte (o : Operand) (s : State) : Byte :=
  match o with
  | .imm b => b
  | o => s.mem.read (effAddr o s)

/-- The page-cross sub-cycle of R116: `i` for writing classes, `(i)` for reading ones. -/
def crossHistory (cls : Access) (carry : Bool) : List BusEvent :=
  match cls, carry with
  | .w, _ => [.idle]
  | .rmw, _ => [.idle]
  | .r, true => [.idle]
  | .r, false => []
  | .none, _ => []

/-- The two reads of a page-0 pointer, `P1 P2` (R130). -/
def pointerHistory (m : Memory) (z : Byte) : List BusEvent :=
  [.read (zext16 z) (m.read (zext16 z)), .read (zext16 (z + 1)) (m.read (zext16 (z + 1)))]

/-- What a resolver puts between the operand reads and the data access (R130). -/
def resolveHistory (cls : Access) (o : Operand) (s : State) : List BusEvent :=
  match o with
  | .imm _ | .zp _ | .abs _ => []
  | .zpx _ | .zpy _ => [.idle]
  | .abx _ | .aby _ => crossHistory cls ((carries o s).getD false)
  | .izx b => .idle :: pointerHistory s.mem (b + s.x)
  | .izy b => pointerHistory s.mem b ++ crossHistory cls ((carries o s).getD false)

/-- The resolver and the data access of class `R`: `Rd` (R130); for `IMM` the fetch made it. -/
def readHistory (o : Operand) (s : State) : List BusEvent :=
  match o with
  | .imm _ => []
  | o => resolveHistory .r o s ++ [.read (effAddr o s) (operandByte o s)]

/-- The resolver and the data access of class `W`: `Wr` (R130). -/
def writeHistory (o : Operand) (v : Byte) (s : State) : List BusEvent :=
  resolveHistory .w o s ++ [.write (effAddr o s) v]

/-- The resolver and the data access of class `RMW`: `Rd i Wr` (R130, R191). -/
def modifyHistory (o : Operand) (new : Byte) (s : State) : List BusEvent :=
  resolveHistory .rmw o s ++ [.read (effAddr o s) (s.mem.read (effAddr o s)), .idle, .write (effAddr o s) new]

/-- Sub-cycles after which the counter and the history stand as given (R53, R71). -/
def State.elapse (h : List BusEvent) (s : State) : State := { s with cyc := s.cyc + h.length, bus := s.bus ++ h }

/-- The state after the operand of class `R` has been read. -/
def State.afterRead (o : Operand) (s : State) : State :=
  { s.elapse (readHistory o s) with
    ea := effAddr o s, pageCross := (carries o s).getD s.pageCross, dl := operandByte o s }

/-- The state after a store of `v`. -/
def State.afterWrite (o : Operand) (v : Byte) (s : State) : State :=
  { s.elapse (writeHistory o v s) with
    ea := effAddr o s, pageCross := (carries o s).getD s.pageCross, mem := s.mem.write (effAddr o s) v }

/-- The state after a read-modify-write that leaves the byte `new`, but for the flags. -/
def State.afterModify (o : Operand) (new : Byte) (s : State) : State :=
  { s.elapse (modifyHistory o new s) with
    ea := effAddr o s, pageCross := (carries o s).getD s.pageCross
    dl := s.mem.read (effAddr o s), mem := s.mem.write (effAddr o s) new }

/-- A memory after the writes of a bus history, in order (R52, R55, R71). -/
def replay : List BusEvent → Memory → Memory
  | [], m => m
  | .write a v :: h, m => replay h (m.write a v)
  | .read _ _ :: h, m => replay h m
  | .idle :: h, m => replay h m

/-! ### Every shape of R130 -/

/-- The condition a branch tests (R215 to R222); none for other instructions. -/
def branchCondition (f : Flags) : Instr → Option (Bool × Byte)
  | .bcc b => some (!f.c, b)
  | .bcs b => some (f.c, b)
  | .bne b => some (!f.z, b)
  | .beq b => some (f.z, b)
  | .bpl b => some (!f.n, b)
  | .bmi b => some (f.n, b)
  | .bvc b => some (!f.v, b)
  | .bvs b => some (f.v, b)
  | _ => none

/-- The extra cycles of a branch: 1 taken to the same page, 2 to another (R214, R296). -/
def branchExtra (taken : Bool) (off : Byte) (s : State) : Nat :=
  if taken then if hi (s.pc + sext16 off) = hi s.pc then 1 else 2 else 0

/-- The byte a read-modify-write instruction leaves (R192, R193, R199 to R202). -/
def modified (i : Instr) (m : Byte) (c : Bool) : Byte :=
  match i with
  | .inc _ => m + 1
  | .dec _ => m - 1
  | .asl _ => (shiftAsl m c).1
  | .lsr _ => (shiftLsr m c).1
  | .rol _ => (shiftRol m c).1
  | .ror _ => (shiftRor m c).1
  | _ => m

/-- The sub-cycles of an instruction after the reads of its own bytes, by the two tables of R130. -/
def history (i : Instr) (s : State) : List BusEvent :=
  let stackRead (k : Byte) : BusEvent := .read (stackAddr (s.sp + k)) (s.mem.read (stackAddr (s.sp + k)))
  let stackWrite (k v : Byte) : BusEvent := .write (stackAddr (s.sp - k)) v
  let rmw (o : Operand) := modifyHistory o (modified i (s.mem.read (effAddr o s)) s.flags.c) s
  let shift (o : ShiftOperand) : List BusEvent := match o with
    | .acc => [.idle]
    | .mem o => rmw o
  let branch (taken : Bool) (off : Byte) : List BusEvent := List.replicate (branchExtra taken off s) .idle
  match i with
  | .lda o | .ldx o | .ldy o | .and o | .ora o | .eor o | .bit o => readHistory o s
  | .adc o | .sbc o | .cmp o | .cpx o | .cpy o => readHistory o s
  | .sta o => writeHistory o s.a s
  | .stx o => writeHistory o s.x s
  | .sty o => writeHistory o s.y s
  | .inc o | .dec o => rmw o
  | .asl o | .lsr o | .rol o | .ror o => shift o
  | .tax | .tay | .txa | .tya | .tsx | .txs | .inx | .iny | .dex | .dey | .nop => [.idle]
  | .clc | .cld | .cli | .clv | .sec | .sed | .sei => [.idle]
  | .pha => [.idle, stackWrite 0 s.a]
  | .php => [.idle, stackWrite 0 (packP true s.flags)]
  | .pla | .plp => [.idle, .idle, stackRead 1]
  | .jmp (.abs _) => []
  | .jmp (.ind p) =>
    let q := join (hi p) (lo p + 1)
    [.read p (s.mem.read p), .read q (s.mem.read q)]
  | .jsr _ => [.idle, stackWrite 0 (hi (s.pc - 1)), stackWrite 1 (lo (s.pc - 1))]
  | .rts => [.idle, .idle, stackRead 1, stackRead 2, .idle]
  | .rti => [.idle, .idle, stackRead 1, stackRead 2, stackRead 3]
  | .brk =>
    [.idle, stackWrite 0 (hi (s.pc + 1)), stackWrite 1 (lo (s.pc + 1)), stackWrite 2 (packP true s.flags),
     .read Config.vecIrq (s.mem.read Config.vecIrq), .read (Config.vecIrq + 1) (s.mem.read (Config.vecIrq + 1))]
  | .bcc b => branch (!s.flags.c) b
  | .bcs b => branch s.flags.c b
  | .bne b => branch (!s.flags.z) b
  | .beq b => branch s.flags.z b
  | .bpl b => branch (!s.flags.n) b
  | .bmi b => branch s.flags.n b
  | .bvc b => branch (!s.flags.v) b
  | .bvs b => branch s.flags.v b
  | .ill op => List.replicate (Config.illegalExtraCycles op) .idle

/-! ### The base cycle counts of R295 -/

/-- Class `R` (R295). -/
def readCycles : Operand → Nat
  | .imm _ => 2
  | .zp _ => 3
  | .zpx _ | .zpy _ | .abs _ | .abx _ | .aby _ => 4
  | .izx _ => 6
  | .izy _ => 5

/-- Class `W` (R295); there is no immediate store. -/
def writeCycles : Operand → Option Nat
  | .imm _ => none
  | .zp _ => some 3
  | .zpx _ | .zpy _ | .abs _ => some 4
  | .abx _ | .aby _ => some 5
  | .izx _ | .izy _ => some 6

/-- Class `RMW` (R295); these are the only modes. -/
def modifyCycles : Operand → Option Nat
  | .zp _ => some 5
  | .zpx _ | .abs _ => some 6
  | .abx _ => some 7
  | .imm _ | .zpy _ | .aby _ | .izx _ | .izy _ => none

/-- The base cycle count (R295): none for an illegal opcode, whose count is unspecified. -/
def baseCycles : Instr → Option Nat
  | .lda o | .ldx o | .ldy o | .and o | .ora o | .eor o | .bit o => some (readCycles o)
  | .adc o | .sbc o | .cmp o | .cpx o | .cpy o => some (readCycles o)
  | .sta o | .stx o | .sty o => writeCycles o
  | .inc o | .dec o => modifyCycles o
  | .asl .acc | .lsr .acc | .rol .acc | .ror .acc => some 2
  | .asl (.mem o) | .lsr (.mem o) | .rol (.mem o) | .ror (.mem o) => modifyCycles o
  | .tax | .tay | .txa | .tya | .tsx | .txs | .inx | .iny | .dex | .dey | .nop => some 2
  | .clc | .cld | .cli | .clv | .sec | .sed | .sei => some 2
  | .pha | .php => some 3
  | .pla | .plp => some 4
  | .jmp (.abs _) => some 3
  | .jmp (.ind _) => some 5
  | .jsr _ | .rts | .rti => some 6
  | .brk => some 7
  | .bcc _ | .bcs _ | .bne _ | .beq _ | .bpl _ | .bmi _ | .bvc _ | .bvs _ => some 2
  | .ill _ => none

/-- The memory operand of an instruction of class `R` (R85). -/
def sourceOperand : Instr → Option Operand
  | .lda o | .ldx o | .ldy o | .and o | .ora o | .eor o | .bit o => some o
  | .adc o | .sbc o | .cmp o | .cpx o | .cpy o => some o
  | _ => none

/-- The cycles over the base count: (a) and (b) of R296 for a taken branch, (c) for a reading instruction whose
index addition carries. -/
def extraCycles (i : Instr) (s : State) : Nat :=
  match branchCondition s.flags i, sourceOperand i with
  | some (taken, off), _ => branchExtra taken off s
  | none, some o => if (carries o s).getD false then 1 else 0
  | none, none => 0

end Sys2Proof.Machine
end

