-- ==== Sys2Proof/Machine/Run.lean ====
section
/-! DEFINITION. What the host sees at a boundary and how it runs the core to a condition: 60_exceptions.md
R272, R273. -/

namespace Sys2Proof.Machine

/-- The state the host may read at a boundary (R272, R35). -/
structure HostView where
  a : Byte
  x : Byte
  y : Byte
  s : Byte
  pc : Word
  /-- The flags as one byte, `PackP(0)` (R35). -/
  p : Byte
  ea : Word
  cyc : Nat
  mem : Memory
  deriving DecidableEq, Repr

/-- What the host reads (R272). -/
def State.view (s : State) : HostView :=
  { a := s.a, x := s.x, y := s.y, s := s.sp, pc := s.pc, p := packP false s.flags, ea := s.ea, cyc := s.cyc
    mem := s.mem }

/-- `load_image(bytes, origin)`, a host action before launch (R272, R286). DESIGN CHOICE (log 18): an image that
runs past 0xFFFF wraps, and cells the bus does not back are stored without an error; no step can reach those. -/
def State.loadImage (origin : Word) (bytes : List Byte) (s : State) : State :=
  { s with mem := s.mem.load origin bytes }

/-- The bus's own `reset()`, a host action before launch: every byte 0x00, which is what an unlisted address
reads as (R272, R286; log 3). -/
def State.zeroFill (s : State) : State := { s with mem := [] }

/-- How a bounded run ends. -/
inductive RunEnd where
  /-- The predicate held after a step. -/
  | stopped (s : State)
  /-- The bound on steps was reached first: every finite prefix is defined (93_implementation_defined.md U7). -/
  | running (s : State)
  | fault (f : Fault)
  | refused (r : Refusal)
  deriving DecidableEq, Repr

/-- `run(stop)`: step, then evaluate `stop` on the visible state, never before the first step (R273, D32).
DESIGN CHOICE (log 15): at most `fuel` steps; and a reset or a clock's reset among the coming moves counts as a
step of the run, after which `stop` is asked too, even before the first `Boundary` step. The spec's run has
`Boundary` steps only. -/
def runUntil (stop : HostView → Bool) : Nat → State → RunEnd
  | 0, s => .running s
  | fuel + 1, s =>
    match step s with
    | .next t => if stop t.view then .stopped t else runUntil stop fuel t
    | .fault f => .fault f
    | .refused r => .refused r

end Sys2Proof.Machine
end

