-- ==== Sys2Proof/Safety.lean ====
section
/-! DEFINITION. What counts as a safe state and a safe run, and the tables of who writes what, in the terms the
statements use. -/

namespace Sys2Proof.Machine

/-- The bus backs the whole 16-bit space, `MEM_SIZE = 65536`, the spec's default (00_scope.md R9). -/
def State.fullMemory (s : State) : Prop := s.memSize = 65536

/-- The invariant of the state as data: memory in its canonical form, every cell on the bus, and a bus of at
most 65536 bytes (R9, R50). -/
def State.inv (s : State) : Prop :=
  s.mem.wf ∧ (∀ cell ∈ s.mem, cell.1 < s.memSize) ∧ s.memSize ≤ 65536

/-- The step neither faults nor is refused. -/
def State.safe (s : State) : Prop := ∃ t, step s = .next t

/-- The boundary runs an instruction: no NMI, and no IRQ that `I` lets through (60_exceptions.md R257). -/
def State.runsInstruction (s : State) : Prop :=
  s.env = [] ∨ ∃ irq rest, s.env = .lines false irq :: rest ∧ (irq = true → s.flags.i = true)

/-- The bytes at `PC`: as many as the longest instruction has, addresses modulo 65536 (R26, R80). -/
def State.bytesAtPc (s : State) : List Byte :=
  [s.mem.read s.pc, s.mem.read (s.pc + 1), s.mem.read (s.pc + 2)]

/-- The reads of the first `n` bytes at `PC`, `F O1 O2` (R130). -/
def fetchHistory (n : Nat) (s : State) : List BusEvent :=
  (List.range n).map fun k => .read (s.pc + BitVec.ofNat 16 k) (s.mem.read (s.pc + BitVec.ofNat 16 k))

/-- The state an instruction of `n` bytes begins in: `PC` past it, one sub-cycle spent on each byte, the
environment's move consumed, the scratch begun afresh (R25, R39, R40, R100). -/
def State.fetched (n : Nat) (s : State) : State :=
  { s with
    pc := s.pc + BitVec.ofNat 16 n
    cyc := s.cyc + n
    bus := fetchHistory n s
    ea := Config.freeWord s.draws, dl := Config.freeByte s.draws, draws := s.draws + 1
    pageCross := false
    env := s.env.tail }

/-- The three bytes of an interrupt frame: PC high, PC low, flags, going down in page 1 (20_memory.md R62). -/
def pushFrame (brk : Bool) (pc : Word) (s : State) : Memory :=
  ((s.mem.write (stackAddr s.sp) (hi pc)).write (stackAddr (s.sp - 1)) (lo pc)).write
    (stackAddr (s.sp - 2)) (packP brk s.flags)

/-! ### Who writes what -/

/-- Instructions that write `A` (10_state.md R24). -/
def writesA : Instr → Bool
  | .lda _ | .txa | .tya | .pla | .and _ | .ora _ | .eor _ | .adc _ | .sbc _ => true
  | .asl o | .lsr o | .rol o | .ror o => o == .acc
  | _ => false

/-- Instructions that write `X` (R24). -/
def writesX : Instr → Bool
  | .ldx _ | .tax | .tsx | .inx | .dex => true
  | _ => false

/-- Instructions that write `Y` (R24). -/
def writesY : Instr → Bool
  | .ldy _ | .tay | .iny | .dey => true
  | _ => false

/-- Instructions that write `S` (R24). -/
def writesS : Instr → Bool
  | .txs | .pha | .php | .pla | .plp | .jsr _ | .rts | .brk | .rti => true
  | _ => false

/-- Instructions that write `C` (10_state.md R34). -/
def writesC : Instr → Bool
  | .adc _ | .sbc _ | .cmp _ | .cpx _ | .cpy _ | .asl _ | .rol _ | .lsr _ | .ror _ => true
  | .clc | .sec | .plp | .rti => true
  | _ => false

/-- Instructions that write `Z` (R34). -/
def writesZ : Instr → Bool
  | .lda _ | .ldx _ | .ldy _ | .tax | .tay | .txa | .tya | .tsx | .pla => true
  | .and _ | .ora _ | .eor _ | .adc _ | .sbc _ | .cmp _ | .cpx _ | .cpy _ | .bit _ => true
  | .inc _ | .dec _ | .inx | .iny | .dex | .dey | .asl _ | .lsr _ | .rol _ | .ror _ | .plp | .rti => true
  | _ => false

/-- Instructions that write `N`: those that write `Z` (R34). -/
def writesN (i : Instr) : Bool := writesZ i

/-- Instructions that write `V` (R34). -/
def writesV : Instr → Bool
  | .adc _ | .sbc _ | .bit _ | .clv | .plp | .rti => true
  | _ => false

/-- Instructions that write `I` (R34). -/
def writesI : Instr → Bool
  | .sei | .cli | .brk | .plp | .rti => true
  | _ => false

/-- Instructions that write `D` (R34). -/
def writesD : Instr → Bool
  | .sed | .cld | .plp | .rti => true
  | _ => false

/-- The address a resolver gives an operand, by the operation the meanings use. -/
def resolvedAddr (cls : Access) (o : Operand) (s : State) : List Word :=
  match resolve cls o s with
  | .ok r => [r.ea]
  | .error _ => []

/-- The addresses an instruction stores a byte to, each one byte wide: the resolved address for a store or a
read-modify-write, the stack slots for a push (R121, R60, R62). -/
def storedAddrs (i : Instr) (s : State) : List Word :=
  match i with
  | .sta o | .stx o | .sty o => resolvedAddr .w o s
  | .inc o | .dec o => resolvedAddr .rmw o s
  | .asl (.mem o) | .lsr (.mem o) | .rol (.mem o) | .ror (.mem o) => resolvedAddr .rmw o s
  | .pha | .php => [stackAddr s.sp]
  | .jsr _ => [stackAddr s.sp, stackAddr (s.sp - 1)]
  | .brk => [stackAddr s.sp, stackAddr (s.sp - 1), stackAddr (s.sp - 2)]
  | _ => []

end Sys2Proof.Machine
end

