-- ==== Sys2Proof/Certificates/Slice0/Obligations.lean ====
section
/-! DEFINITION. The statements for the provers, one definition each; OBLIGATIONS.json lists them. The state a
meaning starts from is the one right after the fetch: `PC` is past the instruction (10_state.md R25). -/

open Sys2Proof
open Sys2Proof.Machine

/-! ### Encoding -/

/-- Decoding the bytes of a well-formed instruction gives it back, with every operand at every value, whatever bytes
follow (30_encoding.md R81, R83, R88, R89). Rests on: the opcode map beyond the source's four bytes is the spec's
own (D8, GK1). -/
def Obligations.DecodeOfEncodeGivesTheInstruction : Prop :=
  ∀ (i : Instr) (rest : List Byte), i.wellFormed = true →
    ∃ bytes, encode i = some bytes ∧ decode (bytes ++ rest) = .ok (i, rest)

/-- The other direction: what the decoder reads is well formed, and its encoding is exactly the bytes read. Rests
on: the opcode map beyond the source's four bytes is the spec's own (D8, GK1). Rests on: the opcode map beyond the
source's four bytes is the spec's own (D8, GK1). -/
def Obligations.DecodedBytesAreTheEncoding : Prop :=
  ∀ (bytes rest : List Byte) (i : Instr), decode bytes = .ok (i, rest) →
    i.wellFormed = true ∧ ∃ front, encode i = some front ∧ bytes = front ++ rest

/-- R84: every opcode byte decodes; the instruction read has that byte as its opcode and takes as many bytes as
its mode says (R82). -/
def Obligations.EveryOpcodeByteDecodes : Prop :=
  ∀ (op b1 b2 : Byte), ∃ i rest, decode [op, b1, b2] = .ok (i, rest) ∧ i.opcode = some op ∧
    rest.length + i.length = 3

/-- R90: exactly the listed bytes decode to the fallback, one byte long. Rests on: which bytes are illegal follows
from the spec's own opcode map (D8, GK1). -/
def Obligations.IllegalBytesDecodeToTheFallback : Prop :=
  illegalOpcodes.length = 105 ∧
  ∀ (op : Byte) (rest : List Byte),
    (op ∈ illegalOpcodes ↔ decode (op :: rest) = .ok (.ill op, rest)) ∧
    ∀ q rest', decode (op :: rest) = .ok (.ill q, rest') → q = op ∧ rest' = rest

/-- R87: the four opcode bytes the source itself gives. -/
def Obligations.SourceOpcodesDecode : Prop :=
  decode [0xA9, 0x00] = .ok (.lda (.imm 0x00), []) ∧
  decode [0x69, 0x01] = .ok (.adc (.imm 0x01), []) ∧
  decode [0x20, 0x00, 0x40] = .ok (.jsr 0x4000, []) ∧
  decode [0x60] = .ok (.rts, [])

/-! ### The step -/

/-- When the boundary runs an instruction and the bytes at `PC` decode to a well-formed `i`, `step` is `exec i` of
the fetched state: `PC` past the instruction, one sub-cycle for each of its bytes, the scratch begun afresh, the
environment's move consumed (40_execute_and_addressing.md R100). Rests on: that all operand bytes are fetched before
the meaning runs (log 12), the free scratch values (log 5) and the queue of moves (log 1) are the model's form. -/
def Obligations.StepRunsTheDecodedInstruction : Prop :=
  ∀ (s : State) (i : Instr) (rest : List Byte),
    s.fullMemory → s.runsInstruction → i.wellFormed = true → decode s.bytesAtPc = .ok (i, rest) →
    step s = exec i (s.fetched i.length)

/-- 10_state.md R27: where each instruction leaves `PC`, from the boundary before it. Rests on: the table is the
spec's inference; vectors D2, wraps D21, tested flags GK4. -/
def Obligations.StepLeavesPcByTheTable : Prop :=
  ∀ (s : State) (i : Instr) (rest : List Byte),
    s.fullMemory → s.runsInstruction → i.wellFormed = true → decode s.bytesAtPc = .ok (i, rest) →
    ∃ t, step s = .next t ∧
      match i with
      | .jmp (.abs w) => t.pc = w
      | .jmp (.ind p) => t.pc = join (s.mem.read (join (hi p) (lo p + 1))) (s.mem.read p)
      | .jsr w => t.pc = w
      | .rts => t.pc = join (s.mem.read (stackAddr (s.sp + 2))) (s.mem.read (stackAddr (s.sp + 1))) + 1
      | .rti => t.pc = join (s.mem.read (stackAddr (s.sp + 3))) (s.mem.read (stackAddr (s.sp + 2)))
      | .brk => t.pc = join (s.mem.read 0xFFFF) (s.mem.read 0xFFFE)
      | .bcc o => t.pc = if s.flags.c = false then s.pc + 2 + sext16 o else s.pc + 2
      | .bcs o => t.pc = if s.flags.c = true then s.pc + 2 + sext16 o else s.pc + 2
      | .bne o => t.pc = if s.flags.z = false then s.pc + 2 + sext16 o else s.pc + 2
      | .beq o => t.pc = if s.flags.z = true then s.pc + 2 + sext16 o else s.pc + 2
      | .bpl o => t.pc = if s.flags.n = false then s.pc + 2 + sext16 o else s.pc + 2
      | .bmi o => t.pc = if s.flags.n = true then s.pc + 2 + sext16 o else s.pc + 2
      | .bvc o => t.pc = if s.flags.v = false then s.pc + 2 + sext16 o else s.pc + 2
      | .bvs o => t.pc = if s.flags.v = true then s.pc + 2 + sext16 o else s.pc + 2
      | i => t.pc = s.pc + BitVec.ofNat 16 i.length

/-- 40_execute_and_addressing.md R130: the ordered bus history of every instruction step, and of an interrupt entry
(either line). Rests on: the place of idle sub-cycles is the spec's own (D9, D25, D27, D30, D18); the cycles of an
illegal opcode are open (log 6). -/
def Obligations.StepHasTheBusHistoryOfItsShape : Prop :=
  (∀ (s : State) (i : Instr) (rest : List Byte),
    s.fullMemory → s.runsInstruction → i.wellFormed = true → decode s.bytesAtPc = .ok (i, rest) →
    ∃ t, step s = .next t ∧ t.bus = fetchHistory i.length s ++ history i (s.fetched i.length)) ∧
  ∀ (s : State) (vec : Word) (nmi irq : Bool) (rest : List EnvMove),
    s.fullMemory → s.env = .lines nmi irq :: rest →
    (nmi = true ∧ vec = 0xFFFA ∨ nmi = false ∧ irq = true ∧ s.flags.i = false ∧ vec = 0xFFFE) →
    ∃ t, step s = .next t ∧ t.bus =
      [.idle, .idle, .write (stackAddr s.sp) (hi s.pc), .write (stackAddr (s.sp - 1)) (lo s.pc),
       .write (stackAddr (s.sp - 2)) (packP false s.flags),
       .read vec (s.mem.read vec), .read (vec + 1) (s.mem.read (vec + 1))]

/-- 70_reset_and_hazards.md R296: a legal opcode's step takes its base count of cycles (R295) and the extra cycles
of a taken branch, of its page cross, and of a reading instruction's page cross; nothing else. Rests on: the counts
are the spec's own but for LDA immediate (D9, GK2). -/
def Obligations.StepTakesBaseCyclesPlusExtra : Prop :=
  ∀ (s : State) (i : Instr) (rest : List Byte),
    s.fullMemory → s.runsInstruction → i.wellFormed = true → decode s.bytesAtPc = .ok (i, rest) →
    (∀ op, i ≠ .ill op) →
    ∃ t n, step s = .next t ∧ baseCycles i = some n ∧
      t.cyc = s.cyc + n + extraCycles i (s.fetched i.length)

/-- 20_memory.md R53: `CYC` counts sub-cycles. Whatever an instruction step or an interrupt entry does, the counter
advances by the length of its bus history. Rests on: an idle sub-cycle puts nothing on the bus (D10); CYC is
unbounded (D23). -/
def Obligations.CycAdvancesOncePerSubCycle : Prop :=
  ∀ s t : State, step s = .next t →
    (s.env = [] ∨ ∃ nmi irq rest, s.env = .lines nmi irq :: rest) →
    t.cyc = s.cyc + t.bus.length

/-! ### Interrupts and reset -/

/-- R257, R260: NMI is taken whatever `I` and the IRQ line say; the whole next state. Rests on: masking, priority,
vectors and cycles are the spec's own (D2, D15, D16, D18); EA and DL are free (log 5), and the entry leaves
page_cross alone (log 17). -/
def Obligations.NmiIsTakenAtTheBoundary : Prop :=
  ∀ (s : State) (irq : Bool) (rest : List EnvMove),
    s.fullMemory → s.env = .lines true irq :: rest →
    step s = .next { s with
      env := rest
      mem := pushFrame false s.pc s
      sp := s.sp - 3
      flags := { s.flags with i := true }
      pc := join (s.mem.read 0xFFFB) (s.mem.read 0xFFFA)
      cyc := s.cyc + 7
      bus := [.idle, .idle, .write (stackAddr s.sp) (hi s.pc), .write (stackAddr (s.sp - 1)) (lo s.pc),
        .write (stackAddr (s.sp - 2)) (packP false s.flags),
        .read 0xFFFA (s.mem.read 0xFFFA), .read 0xFFFB (s.mem.read 0xFFFB)]
      ea := Config.freeWord s.draws, dl := Config.freeByte s.draws, draws := s.draws + 1 }

/-- R257, R260: IRQ without NMI is taken when `I` is clear; the whole next state. Rests on: masking, vectors and
cycles are the spec's own (D2, D15, D18); EA and DL are free (log 5), and the entry leaves page_cross alone (log
17). -/
def Obligations.IrqIsTakenWhenIIsClear : Prop :=
  ∀ (s : State) (rest : List EnvMove),
    s.fullMemory → s.env = .lines false true :: rest → s.flags.i = false →
    step s = .next { s with
      env := rest
      mem := pushFrame false s.pc s
      sp := s.sp - 3
      flags := { s.flags with i := true }
      pc := join (s.mem.read 0xFFFF) (s.mem.read 0xFFFE)
      cyc := s.cyc + 7
      bus := [.idle, .idle, .write (stackAddr s.sp) (hi s.pc), .write (stackAddr (s.sp - 1)) (lo s.pc),
        .write (stackAddr (s.sp - 2)) (packP false s.flags),
        .read 0xFFFE (s.mem.read 0xFFFE), .read 0xFFFF (s.mem.read 0xFFFF)]
      ea := Config.freeWord s.draws, dl := Config.freeByte s.draws, draws := s.draws + 1 }

/-- The three slots of a frame hold PC high, PC low and the flags with Break as given, read back from memory
(20_memory.md R62); no other byte changes. Rests on: the layout is the spec's inference from push. -/
def Obligations.FrameLiesInPageOne : Prop :=
  ∀ (s : State) (brk : Bool) (pc : Word),
    (pushFrame brk pc s).read (stackAddr s.sp) = hi pc ∧
    (pushFrame brk pc s).read (stackAddr (s.sp - 1)) = lo pc ∧
    (pushFrame brk pc s).read (stackAddr (s.sp - 2)) = packP brk s.flags ∧
    ∀ adr, hi adr ≠ 0x01 → (pushFrame brk pc s).read adr = s.mem.read adr

/-- R266: an interrupt handler that leaves the frame and `S` as the entry left them, and then executes RTI, resumes
at the interrupted instruction with the flags of before the entry. Rests on: bits 5 and 4 are dropped (D13). -/
def Obligations.RtiReturnsFromAnInterrupt : Prop :=
  ∀ (s t h : State) (nmi irq : Bool) (rest : List EnvMove),
    s.env = .lines nmi irq :: rest → (nmi = true ∨ irq = true ∧ s.flags.i = false) →
    step s = .next t →
    h.fullMemory → h.sp = t.sp →
    (∀ k : Byte, k ∈ [(1 : Byte), 2, 3] → h.mem.read (stackAddr (t.sp + k)) = t.mem.read (stackAddr (t.sp + k))) →
    ∃ u, exec .rti h = .next u ∧ u.pc = s.pc ∧ u.flags = s.flags ∧ u.sp = s.sp

/-- R280: the reset step; `A`, `X`, `Y` are left open, so nothing is said of them. A bus that does not back the
RESET vector makes it fault (20_memory.md R55). Rests on: the reset values are the spec's own (D2 to D5, D7, D33);
nothing is said of A, X, Y (D6); the fault carries the state in the model's form (log 10). -/
def Obligations.ResetStepLoadsTheVector : Prop :=
  ∀ (s : State) (rest : List EnvMove), s.env = .reset :: rest →
    (s.fullMemory → ∃ t, step s = .next t ∧
      t.pc = join (s.mem.read 0xFFFD) (s.mem.read 0xFFFC) ∧ t.sp = 0xFD ∧
      t.flags = { n := false, v := false, d := false, i := true, z := false, c := false } ∧
      t.cyc = 0 ∧ t.mem = s.mem ∧ t.bus = [] ∧ t.env = rest) ∧
    (s.memSize ≤ 0xFFFD → ∃ a, step s = .fault (.busRange a { s with env := rest }) ∧
      s.memSize ≤ BitVec.toNat a ∧ (a = 0xFFFC ∨ a = 0xFFFD))

/-- R42: what a reset leaves, of the values the spec gives; `PC` is the word at 0xFFFC of the memory. Rests on: the
reset values are the spec's own (D3 to D5, D7). -/
def Obligations.StateAfterReset : Prop :=
  State.reset.pc = join (State.reset.mem.read 0xFFFD) (State.reset.mem.read 0xFFFC) ∧
  State.reset.sp = 0xFD ∧
  State.reset.flags = { n := false, v := false, d := false, i := true, z := false, c := false } ∧
  State.reset.cyc = 0

/-! ### Invariants and faults -/

/-- The invariant of the state as data holds right after reset. Rests on: the canonical form is the model's (log 3),
MEM_SIZE a field (log 2). -/
def Obligations.InvariantHoldsAtReset : Prop := State.reset.inv

/-- Every step keeps it: memory stays in its canonical form, every cell is one the bus backs. Rests on: the
canonical form is the model's (log 3), MEM_SIZE a field (log 2). -/
def Obligations.EveryStepKeepsTheInvariant : Prop :=
  ∀ s t : State, s.inv → step s = .next t → t.inv

/-- R55: on a bus of 65536 bytes no step stops, and the bus stays so: every run goes on for ever. Rests on: the
reduction of every address modulo 65536 is the spec's own (D21, D22). -/
def Obligations.FullMemoryNeverStops : Prop :=
  ∀ s : State, s.fullMemory → s.safe ∧ ∀ t, step s = .next t → t.fullMemory

/-- R251, R252, 20_memory.md R55: the only way a step stops is a transaction at an address the bus does not back,
and what the completed sub-cycles wrote stays written: the memory at the fault is the old one with the writes of the
step's history, in order. Rests on: that nothing else traps is the spec's inference; the fault carries the state in
the model's form (log 10). -/
def Obligations.OnlyBusRangeStopsAStep : Prop :=
  ∀ s : State,
    (∀ f, step s = .fault f → ∃ (a : Word) (t : State), f = .busRange a t ∧ s.memSize ≤ a.toNat ∧
      t.memSize = s.memSize ∧
      ((s.env = [] ∨ ∃ nmi irq rest, s.env = .lines nmi irq :: rest) →
        t.mem = replay t.bus s.mem ∧ t.cyc = s.cyc + t.bus.length)) ∧
    ∀ r, step s ≠ .refused r

/-- R12: an access beyond the bus raises `BusRange` of its address; one within it is one sub-cycle that reads the
byte, or writes it and changes no other cell. Rests on: the history is the model's field (log 7), and a fault
carries the state (log 10). -/
def Obligations.BusTransactions : Prop :=
  ∀ (a : Word) (v : Byte) (s : State),
    (s.memSize ≤ a.toNat → memRead a s = .error (.busRange a s) ∧ memWrite a v s = .error (.busRange a s)) ∧
    (a.toNat < s.memSize →
      memRead a s = .ok (s.mem.read a, { s with cyc := s.cyc + 1, bus := s.bus ++ [.read a (s.mem.read a)] }) ∧
      ∃ m : Memory, memWrite a v s = .ok { s with mem := m, cyc := s.cyc + 1, bus := s.bus ++ [.write a v] } ∧
        m.read a = v ∧ ∀ b, b ≠ a → m.read b = s.mem.read b)

/-! ### Frames over all instructions -/

/-- 10_state.md R24: an instruction the table does not list for a register leaves it as it was. Rests on: the table
is the spec's inference from its instruction rules; forms without an encoding have the model's meaning (log 13). -/
def Obligations.RegistersChangeOnlyByTheirWriters : Prop :=
  ∀ (i : Instr) (s t : State), exec i s = .next t →
    (writesA i = false → t.a = s.a) ∧ (writesX i = false → t.x = s.x) ∧
    (writesY i = false → t.y = s.y) ∧ (writesS i = false → t.sp = s.sp)

/-- 10_state.md R34: an instruction not listed for a flag leaves it unchanged. Rests on: the table is the spec's
inference from its instruction rules; forms without an encoding have the model's meaning (log 13). -/
def Obligations.FlagsChangeOnlyByTheirWriters : Prop :=
  ∀ (i : Instr) (s t : State), exec i s = .next t →
    (writesN i = false → t.flags.n = s.flags.n) ∧ (writesV i = false → t.flags.v = s.flags.v) ∧
    (writesD i = false → t.flags.d = s.flags.d) ∧ (writesI i = false → t.flags.i = s.flags.i) ∧
    (writesZ i = false → t.flags.z = s.flags.z) ∧ (writesC i = false → t.flags.c = s.flags.c)

/-- Every byte of memory an instruction does not store to reads as before, for every instruction: the address of a
store or read-modify-write is the one the resolver gives, those of a push are the stack slots. Rests on: one write
and no dummy write in a read-modify-write (D27); forms without an encoding have the model's meaning (log 13). -/
def Obligations.MemoryChangesOnlyWhereStored : Prop :=
  ∀ (i : Instr) (s t : State), exec i s = .next t →
    ∀ adr, adr ∉ storedAddrs i s → t.mem.read adr = s.mem.read adr

/-- No instruction touches the size of the bus, the environment's moves or the count of free values; the history
only grows, and the counter grows with it. Rests on: these fields are the model's own (log 1, log 2, log 5, log 7);
forms without an encoding have the model's meaning (log 13). -/
def Obligations.InstructionsLeaveTheSurroundings : Prop :=
  ∀ (i : Instr) (s t : State), exec i s = .next t →
    t.memSize = s.memSize ∧ t.env = s.env ∧ t.draws = s.draws ∧
    ∃ h, t.bus = s.bus ++ h ∧ t.cyc = s.cyc + h.length

/-! ### Addressing -/

/-- R106 to R114, R119, R120: the effective address of every mode; indexed zero-page sums and pointers wrap inside
page 0, 16-bit sums modulo 65536. Rests on: the wraps of 16-bit sums and of the IZY pointer are the spec's own (D21,
D20); pairs of mode and class without an encoding have the model's meaning (log 13). -/
def Obligations.ResolversGiveTheEffectiveAddress : Prop :=
  ∀ (cls : Access) (s : State), s.fullMemory →
    (∀ b, ∃ r, resolve cls (.imm b) s = .ok r ∧ r.ea = s.pc - 1) ∧
    (∀ b, ∃ r, resolve cls (.zp b) s = .ok r ∧ r.ea = join 0 b) ∧
    (∀ b, ∃ r, resolve cls (.zpx b) s = .ok r ∧ r.ea = join 0 (b + s.x)) ∧
    (∀ b, ∃ r, resolve cls (.zpy b) s = .ok r ∧ r.ea = join 0 (b + s.y)) ∧
    (∀ w, ∃ r, resolve cls (.abs w) s = .ok r ∧ r.ea = w) ∧
    (∀ w, ∃ r, resolve cls (.abx w) s = .ok r ∧ r.ea.toNat = (w.toNat + s.x.toNat) % 65536) ∧
    (∀ w, ∃ r, resolve cls (.aby w) s = .ok r ∧ r.ea.toNat = (w.toNat + s.y.toNat) % 65536) ∧
    (∀ b, ∃ r, resolve cls (.izx b) s = .ok r ∧
      r.ea = join (s.mem.read (join 0 (b + s.x + 1))) (s.mem.read (join 0 (b + s.x)))) ∧
    (∀ b, ∃ r, resolve cls (.izy b) s = .ok r ∧ r.ea.toNat =
      ((join (s.mem.read (join 0 (b + 1))) (s.mem.read (join 0 b))).toNat + s.y.toNat) % 65536)

/-- R111: indexing an absolute base by a register. The sum of the low byte and the index is a 9-bit value: bit 8
is `page_cross`, the low byte of `EA` is the rest, the high byte is raised by bit 8 modulo 256, and the whole is
the base plus the index modulo 65536. -/
def Obligations.PageCrossIsTheCarry : Prop :=
  ∀ (cls : Access) (w : Word) (s : State),
    let indexed (t : State) (r : Byte) : Prop :=
      let sum := (lo w).toNat + r.toNat
      t.pageCross = sum.testBit 8 ∧
      lo t.ea = BitVec.ofNat 8 sum ∧
      hi t.ea = BitVec.ofNat 8 ((hi w).toNat + (sum.testBit 8).toNat) ∧
      t.ea.toNat = (w.toNat + r.toNat) % 65536
    (∃ t, resolve cls (.abx w) s = .ok t ∧ indexed t s.x) ∧
    ∃ t, resolve cls (.aby w) s = .ok t ∧ indexed t s.y

/-- R116: the page-cross sub-cycle of an indexed access, in each of the three modes that have it: always for writing
classes, on a carry only for reading ones; nothing but the counter and the history depends on it. Rests on: that a
read-modify-write pays like a store, and when the cycle is spent, are the spec's own (D30, D25). -/
def Obligations.PageCrossCycleByClass : Prop :=
  ∀ (o : Operand) (s : State), s.fullMemory → (carries o s).isSome = true →
    ∃ r w m, resolve .r o s = .ok r ∧ resolve .w o s = .ok w ∧ resolve .rmw o s = .ok m ∧
      r.pageCross = (carries o s).getD false ∧
      w.cyc = (r.cyc + if r.pageCross then 0 else 1) ∧ m.cyc = w.cyc ∧
      { r with cyc := 0, bus := [] } = { w with cyc := 0, bus := [] } ∧
      { m with cyc := 0, bus := [] } = { w with cyc := 0, bus := [] }

/-! ### Loads, stores, transfers -/

/-- R141 to R143: LDA, LDX, LDY complete for every operand form; the whole next state. Rests on: the place of idle
sub-cycles (D9) and the address wraps (D20, D21) are the spec's own; forms without an encoding have the model's
meaning (log 13). -/
def Obligations.LoadsPutTheOperandInTheRegister : Prop :=
  ∀ (o : Operand) (s : State), s.fullMemory →
    let m := operandByte o s
    let f : Flags := { s.flags with z := m == 0, n := m.getLsbD 7 }
    exec (.lda o) s = .next { s.afterRead o with a := m, flags := f } ∧
    exec (.ldx o) s = .next { s.afterRead o with x := m, flags := f } ∧
    exec (.ldy o) s = .next { s.afterRead o with y := m, flags := f }

/-- R145 to R147: STA, STX, STY complete for every operand form and write the register at the effective address; no
flag, no register. Rests on: the place of idle sub-cycles (D9) and the address wraps (D20, D21) are the spec's own;
forms without an encoding have the model's meaning (log 13). -/
def Obligations.StoresWriteTheRegister : Prop :=
  ∀ (o : Operand) (s : State), s.fullMemory →
    exec (.sta o) s = .next (s.afterWrite o s.a) ∧
    exec (.stx o) s = .next (s.afterWrite o s.x) ∧
    exec (.sty o) s = .next (s.afterWrite o s.y)

/-- R144: a store read back through memory: the byte at the effective address is the stored one, every other byte
reads as before. Rests on: the address is the EA the model keeps after the step (log 12); forms without an encoding
have the model's meaning (log 13). -/
def Obligations.StoredByteReadsBack : Prop :=
  ∀ (o : Operand) (s t : State), exec (.sta o) s = .next t →
    t.mem.read t.ea = s.a ∧ ∀ adr, adr ≠ t.ea → t.mem.read adr = s.mem.read adr

/-- R149 to R154: the transfers; TXS alone leaves the flags. -/
def Obligations.TransfersCopyARegister : Prop :=
  ∀ s : State,
    let zn (v : Byte) : Flags := { s.flags with z := v == 0, n := v.getLsbD 7 }
    let s' := s.elapse [.idle]
    exec .tax s = .next { s' with x := s.a, flags := zn s.a } ∧
    exec .tay s = .next { s' with y := s.a, flags := zn s.a } ∧
    exec .txa s = .next { s' with a := s.x, flags := zn s.x } ∧
    exec .tya s = .next { s' with a := s.y, flags := zn s.y } ∧
    exec .tsx s = .next { s' with x := s.sp, flags := zn s.sp } ∧
    exec .txs s = .next { s' with sp := s.x }

/-! ### Stack -/

/-- R160, R161: the pushes; PHP's byte is N V 1 1 D I Z C. -/
def Obligations.PushesWriteTheStackSlot : Prop :=
  ∀ s : State, s.fullMemory →
    let p := BitVec.ofBoolListBE [s.flags.n, s.flags.v, true, true, s.flags.d, s.flags.i, s.flags.z, s.flags.c]
    exec .pha s = .next { s.elapse [.idle, .write (stackAddr s.sp) s.a] with
      mem := s.mem.write (stackAddr s.sp) s.a, sp := s.sp - 1 } ∧
    exec .php s = .next { s.elapse [.idle, .write (stackAddr s.sp) p] with
      mem := s.mem.write (stackAddr s.sp) p, sp := s.sp - 1 }

/-- R162, R163: the pulls; PLA sets `Z` and `N`, PLP all six flags, bits 5 and 4 ignored. Rests on: PLA's flags
(GK6), the second idle sub-cycle (D9) and the dropped bits (D13) are the spec's own. -/
def Obligations.PullsReadTheSlotAbove : Prop :=
  ∀ s : State, s.fullMemory →
    let v := s.mem.read (stackAddr (s.sp + 1))
    let s' := s.elapse [.idle, .idle, .read (stackAddr (s.sp + 1)) v]
    exec .pla s = .next { s' with
      a := v, sp := s.sp + 1, flags := { s.flags with z := v == 0, n := v.getLsbD 7 } } ∧
    exec .plp s = .next { s' with
      sp := s.sp + 1
      flags := { n := v.getLsbD 7, v := v.getLsbD 6, d := v.getLsbD 3, i := v.getLsbD 2, z := v.getLsbD 1,
                 c := v.getLsbD 0 } }

/-- R164: PHA then PLA, PHP then PLP, PLP then PHP. Rests on: PLA's flags (GK6) and the dropped bits (D13) are the
spec's own. -/
def Obligations.StackSymmetry : Prop :=
  ∀ s : State, s.fullMemory →
    (∃ t u, exec .pha s = .next t ∧ exec .pla t = .next u ∧ u.a = s.a ∧ u.sp = s.sp ∧
      u.flags = { s.flags with z := s.a == 0, n := s.a.getLsbD 7 } ∧
      ∀ adr, adr ≠ stackAddr s.sp → u.mem.read adr = s.mem.read adr) ∧
    (∃ t u, exec .php s = .next t ∧ exec .plp t = .next u ∧ u.flags = s.flags ∧ u.sp = s.sp) ∧
    (∃ t u, exec .plp s = .next t ∧ exec .php t = .next u ∧ u.sp = s.sp ∧
      u.mem.read (stackAddr t.sp) = s.mem.read (stackAddr t.sp) ||| 0x30)

/-! ### Logic, arithmetic, compares -/

/-- R171 to R173: AND, ORA, EOR for every operand form. Rests on: that the result goes to A and sets Z and N is the
spec's own (GK6, GK7), as are idle sub-cycles and wraps (D9, D20, D21); forms without an encoding have the model's
meaning (log 13). -/
def Obligations.LogicCombinesAWithTheOperand : Prop :=
  ∀ (o : Operand) (s : State), s.fullMemory →
    let m := operandByte o s
    let zn (v : Byte) : Flags := { s.flags with z := v == 0, n := v.getLsbD 7 }
    exec (.and o) s = .next { s.afterRead o with a := s.a &&& m, flags := zn (s.a &&& m) } ∧
    exec (.ora o) s = .next { s.afterRead o with a := s.a ||| m, flags := zn (s.a ||| m) } ∧
    exec (.eor o) s = .next { s.afterRead o with a := s.a ^^^ m, flags := zn (s.a ^^^ m) }

/-- R174: BIT writes `Z`, `N`, `V` and nothing else. Rests on: BIT's own modes are ZP and ABS; other forms have no
encoding (log 13). -/
def Obligations.BitTestsTheOperand : Prop :=
  ∀ (o : Operand) (s : State), s.fullMemory →
    let m := operandByte o s
    exec (.bit o) s = .next { s.afterRead o with
      flags := { s.flags with z := (s.a &&& m) == 0, n := m.getLsbD 7, v := m.getLsbD 6 } }

/-- R180, R182: ADC for every operand form: the 9-bit sum, its bit 8, and the overflow formula evaluated on the sum
before it is truncated. Rests on: the place of idle sub-cycles (D9) and the address wraps (D20, D21) are the spec's
own; forms without an encoding have the model's meaning (log 13). -/
def Obligations.AdcAddsWithCarry : Prop :=
  ∀ (o : Operand) (s : State), s.fullMemory →
    let m := operandByte o s
    let sum := s.a.toNat + m.toNat + s.flags.c.toNat
    exec (.adc o) s = .next { s.afterRead o with
      a := BitVec.ofNat 8 sum
      flags := { s.flags with
        c := sum.testBit 8
        v := decide ((s.a.toNat ^^^ sum) &&& (m.toNat ^^^ sum) &&& 0x80 ≠ 0)
        z := decide (sum % 256 = 0), n := sum.testBit 7 } }

/-- R183: SBC for every operand form is ADC with the operand's bits inverted. Rests on: the place of idle sub-cycles
(D9) and the address wraps (D20, D21) are the spec's own; forms without an encoding have the model's meaning (log
13). -/
def Obligations.SbcIsAdcOfTheInvertedOperand : Prop :=
  ∀ (o : Operand) (s : State), s.fullMemory →
    let m := operandByte o s
    let sum := s.a.toNat + (255 - m.toNat) + s.flags.c.toNat
    exec (.sbc o) s = .next { s.afterRead o with
      a := BitVec.ofNat 8 sum
      flags := { s.flags with
        c := sum.testBit 8
        v := decide ((s.a.toNat ^^^ sum) &&& ((255 - m.toNat) ^^^ sum) &&& 0x80 ≠ 0)
        z := decide (sum % 256 = 0), n := sum.testBit 7 } }

/-- R189: after ADC, `C` reports the unsigned outcome and `V` the signed one. Rests on: the signed reading is the
spec's inference; forms without an encoding have the model's meaning (log 13). -/
def Obligations.AdcFlagsReportUnsignedAndSignedOverflow : Prop :=
  ∀ (o : Operand) (s t : State), exec (.adc o) s = .next t →
    let m := operandByte o s
    let signed := s.a.toInt + m.toInt + s.flags.c.toNat
    (t.flags.c = true ↔ 256 ≤ s.a.toNat + m.toNat + s.flags.c.toNat) ∧
    (t.flags.v = true ↔ signed < -128 ∨ 127 < signed) ∧
    (t.flags.v = false → t.a.toInt = signed)

/-- R183, in terms of subtraction: the result, `C` as no borrow, `V` as the signed difference out of range. Rests
on: the reading as subtraction is the spec's inference. Rests on: the reading as subtraction is the spec's
inference; forms without an encoding have the model's meaning (log 13). -/
def Obligations.SbcSubtractsWithBorrow : Prop :=
  ∀ (o : Operand) (s t : State), exec (.sbc o) s = .next t →
    let m := operandByte o s
    let borrow := 1 - s.flags.c.toNat
    let signed := s.a.toInt - m.toInt - borrow
    t.a = s.a - m - BitVec.ofNat 8 borrow ∧
    (t.flags.c = true ↔ m.toNat + borrow ≤ s.a.toNat) ∧
    (t.flags.v = true ↔ signed < -128 ∨ 127 < signed)

/-- R188: ADC with `C` clear, then SEC, then SBC of the same byte: `A` is restored always, and the carry is the
complement of the one the addition left. Rests on: the spec's inference, with its choice C2; forms without an
encoding have the model's meaning (log 13). -/
def Obligations.AdcThenSbcRestoresA : Prop :=
  ∀ (o o' : Operand) (s t u w : State), s.flags.c = false →
    exec (.adc o) s = .next t → exec .sec t = .next u → operandByte o' u = operandByte o s →
    exec (.sbc o') u = .next w →
    w.a = s.a ∧ w.flags.c = !t.flags.c

/-- R181: ADC and SBC do not read `D`: with it set the other way they do the same and leave it alone. Rests on:
binary arithmetic whatever D is the spec's own (D11). Rests on: binary arithmetic whatever D is the spec's own
(D11); forms without an encoding have the model's meaning (log 13). -/
def Obligations.DecimalFlagHasNoEffect : Prop :=
  ∀ (o : Operand) (s t : State) (d : Bool),
    let sd : State := { s with flags := { s.flags with d := d } }
    (exec (.adc o) s = .next t → exec (.adc o) sd = .next { t with flags := { t.flags with d := d } }) ∧
    (exec (.sbc o) s = .next t → exec (.sbc o) sd = .next { t with flags := { t.flags with d := d } })

/-- R184 to R187: the compares for every operand form: `C` unsigned, `Z` on equality, `N` bit 7 of the difference;
nothing else. Rests on: that V is kept is the spec's own (GK8), as are idle sub-cycles and wraps (D9, D20, D21);
forms without an encoding have the model's meaning (log 13). -/
def Obligations.ComparesSetCarryZeroNegative : Prop :=
  ∀ (o : Operand) (s : State), s.fullMemory →
    let m := operandByte o s
    let cmp (r : Byte) : Flags :=
      { s.flags with c := decide (m.toNat ≤ r.toNat), z := decide (r = m), n := (r - m).getLsbD 7 }
    exec (.cmp o) s = .next { s.afterRead o with flags := cmp s.a } ∧
    exec (.cpx o) s = .next { s.afterRead o with flags := cmp s.x } ∧
    exec (.cpy o) s = .next { s.afterRead o with flags := cmp s.y }

/-! ### Increments, decrements, shifts -/

/-- R191 to R193: INC and DEC for every operand form: one read, one idle sub-cycle, one write of the same address;
`Z` and `N` of the new byte. Rests on: the flags (GK6), no dummy write (D27), the page-cross cycle (D30) and idle
sub-cycles (D9) are the spec's own; forms without an encoding have the model's meaning (log 13). -/
def Obligations.IncDecModifyMemory : Prop :=
  ∀ (o : Operand) (s : State), s.fullMemory →
    let m := s.mem.read (effAddr o s)
    let zn (v : Byte) : Flags := { s.flags with z := v == 0, n := v.getLsbD 7 }
    exec (.inc o) s = .next { s.afterModify o (m + 1) with flags := zn (m + 1) } ∧
    exec (.dec o) s = .next { s.afterModify o (m - 1) with flags := zn (m - 1) }

/-- R194 to R197: INX, INY, DEX, DEY wrap modulo 256 and set `Z` and `N`. Rests on: the flags are the spec's own
(GK6). -/
def Obligations.IndexRegistersCount : Prop :=
  ∀ s : State,
    let zn (v : Byte) : Flags := { s.flags with z := v == 0, n := v.getLsbD 7 }
    let s' := s.elapse [.idle]
    exec .inx s = .next { s' with x := s.x + 1, flags := zn (s.x + 1) } ∧
    exec .iny s = .next { s' with y := s.y + 1, flags := zn (s.y + 1) } ∧
    exec .dex s = .next { s' with x := s.x - 1, flags := zn (s.x - 1) } ∧
    exec .dey s = .next { s' with y := s.y - 1, flags := zn (s.y - 1) }

/-- R198 to R202: the shifts of the accumulator; results as the rules' arithmetic on the byte's number. Rests on: Z
and N of the result are the spec's own (GK6). -/
def Obligations.AccumulatorShifts : Prop :=
  ∀ s : State,
    let v := s.a.toNat
    let c := s.flags.c.toNat
    let after (r : Nat) (carry : Bool) : Result := .next { s.elapse [.idle] with
      a := BitVec.ofNat 8 r
      flags := { s.flags with c := carry, z := decide (r % 256 = 0), n := r.testBit 7 } }
    exec (.asl .acc) s = after (v * 2 % 256) (v.testBit 7) ∧
    exec (.lsr .acc) s = after (v / 2) (v.testBit 0) ∧
    exec (.rol .acc) s = after (v * 2 % 256 + c) (v.testBit 7) ∧
    exec (.ror .acc) s = after (v / 2 + c * 128) (v.testBit 0)

/-- R198 to R202: the shifts of memory, for every operand form. Rests on: the flags (GK6), no dummy write (D27), the
page-cross cycle (D30) and idle sub-cycles (D9) are the spec's own; forms without an encoding have the model's
meaning (log 13). -/
def Obligations.MemoryShifts : Prop :=
  ∀ (o : Operand) (s : State), s.fullMemory →
    let v := (s.mem.read (effAddr o s)).toNat
    let c := s.flags.c.toNat
    let after (r : Nat) (carry : Bool) : Result := .next { s.afterModify o (BitVec.ofNat 8 r) with
      flags := { s.flags with c := carry, z := decide (r % 256 = 0), n := r.testBit 7 } }
    exec (.asl (.mem o)) s = after (v * 2 % 256) (v.testBit 7) ∧
    exec (.lsr (.mem o)) s = after (v / 2) (v.testBit 0) ∧
    exec (.rol (.mem o)) s = after (v * 2 % 256 + c) (v.testBit 7) ∧
    exec (.ror (.mem o)) s = after (v / 2 + c * 128) (v.testBit 0)

/-! ### Jumps, calls, branches -/

/-- R210, R117, R118: JMP absolute and indirect, the pointer's high byte from the pointer's own page. -/
def Obligations.JmpSetsPcToTheEffectiveAddress : Prop :=
  ∀ (w : Word) (s : State), s.fullMemory →
    let q := join (hi w) (lo w + 1)
    let target := join (s.mem.read q) (s.mem.read w)
    exec (.jmp (.abs w)) s = .next { s with ea := w, pc := w } ∧
    exec (.jmp (.ind w)) s = .next
      { s.elapse [.read w (s.mem.read w), .read q (s.mem.read q)] with ea := target, pc := target }

/-- R211: JSR pushes the address of its own last byte and jumps. Rests on: the idle sub-cycle is the spec's own
(D9). -/
def Obligations.JsrPushesAndJumps : Prop :=
  ∀ (w : Word) (s : State), s.fullMemory →
    let ret := s.pc - 1
    exec (.jsr w) s = .next
      { s.elapse [.idle, .write (stackAddr s.sp) (hi ret), .write (stackAddr (s.sp - 1)) (lo ret)] with
        mem := (s.mem.write (stackAddr s.sp) (hi ret)).write (stackAddr (s.sp - 1)) (lo ret)
        sp := s.sp - 2, ea := w, pc := w }

/-- R212: RTS pulls the word and adds one. Rests on: two of the idle sub-cycles are the spec's own (D9). -/
def Obligations.RtsPullsAndAddsOne : Prop :=
  ∀ s : State, s.fullMemory →
    let l := s.mem.read (stackAddr (s.sp + 1))
    let h := s.mem.read (stackAddr (s.sp + 2))
    exec .rts s = .next
      { s.elapse [.idle, .idle, .read (stackAddr (s.sp + 1)) l, .read (stackAddr (s.sp + 2)) h, .idle] with
        sp := s.sp + 2, pc := join h l + 1 }

/-- R213: after any code that leaves `S` and the two stack bytes as JSR left them, RTS resumes after the JSR. -/
def Obligations.RtsReturnsFromJsr : Prop :=
  ∀ (w : Word) (s t h : State), exec (.jsr w) s = .next t →
    h.fullMemory → h.sp = t.sp →
    (∀ k : Byte, k ∈ [(1 : Byte), 2] → h.mem.read (stackAddr (t.sp + k)) = t.mem.read (stackAddr (t.sp + k))) →
    ∃ u, exec .rts h = .next u ∧ u.pc = s.pc ∧ u.sp = s.sp

/-- R214 to R222: each branch tests its one flag; taken it goes to the next instruction's address plus the signed
offset, with one idle sub-cycle, or two when the target's page is another. Rests on: the flag each mnemonic tests
(GK4) and the pages compared (D24) are the spec's own. -/
def Obligations.BranchesTestOneFlag : Prop :=
  ∀ (off : Byte) (s : State),
    let target := s.pc + sext16 off
    let cross := decide (hi target ≠ hi s.pc)
    let after (taken : Bool) : Result := .next (
      if taken then { s.elapse (if cross then [.idle, .idle] else [.idle]) with ea := target, pc := target }
      else { s with ea := target })
    exec (.bcc off) s = after (!s.flags.c) ∧ exec (.bcs off) s = after s.flags.c ∧
    exec (.bne off) s = after (!s.flags.z) ∧ exec (.beq off) s = after s.flags.z ∧
    exec (.bpl off) s = after (!s.flags.n) ∧ exec (.bmi off) s = after s.flags.n ∧
    exec (.bvc off) s = after (!s.flags.v) ∧ exec (.bvs off) s = after s.flags.v

/-! ### Flags and system -/

/-- R231 to R237: one flag each, nothing else. Rests on: which flag each mnemonic names is the spec's own (GK5). -/
def Obligations.FlagInstructionsWriteOneFlag : Prop :=
  ∀ s : State,
    let after (f : Flags) : Result := .next { s.elapse [.idle] with flags := f }
    exec .clc s = after { s.flags with c := false } ∧ exec .sec s = after { s.flags with c := true } ∧
    exec .cld s = after { s.flags with d := false } ∧ exec .sed s = after { s.flags with d := true } ∧
    exec .cli s = after { s.flags with i := false } ∧ exec .sei s = after { s.flags with i := true } ∧
    exec .clv s = after { s.flags with v := false }

/-- R240: BRK takes its exception whatever `I` is: the frame with Break set and the address after the skipped byte,
`I` set, `PC` from the vector shared with IRQ. Rests on: the pushed address (D12), the vector (D2) and the idle
sub-cycle (D9) are the spec's own. -/
def Obligations.BrkEntersTheHandler : Prop :=
  ∀ s : State, s.fullMemory →
    let ret := s.pc + 1
    exec .brk s = .next
      { s.elapse [.idle, .write (stackAddr s.sp) (hi ret), .write (stackAddr (s.sp - 1)) (lo ret),
          .write (stackAddr (s.sp - 2)) (packP true s.flags),
          .read 0xFFFE (s.mem.read 0xFFFE), .read 0xFFFF (s.mem.read 0xFFFF)] with
        mem := pushFrame true ret s
        sp := s.sp - 3
        flags := { s.flags with i := true }
        pc := join (s.mem.read 0xFFFF) (s.mem.read 0xFFFE) }

/-- R241: RTI pulls the flags, then PC low, then PC high, and adds nothing. Rests on: the dropped bits (D13) and the
second idle sub-cycle (D9) are the spec's own. -/
def Obligations.RtiRestoresFlagsAndPc : Prop :=
  ∀ s : State, s.fullMemory →
    let p := s.mem.read (stackAddr (s.sp + 1))
    let l := s.mem.read (stackAddr (s.sp + 2))
    let h := s.mem.read (stackAddr (s.sp + 3))
    exec .rti s = .next
      { s.elapse [.idle, .idle, .read (stackAddr (s.sp + 1)) p, .read (stackAddr (s.sp + 2)) l,
          .read (stackAddr (s.sp + 3)) h] with
        sp := s.sp + 3
        flags := { n := p.getLsbD 7, v := p.getLsbD 6, d := p.getLsbD 3, i := p.getLsbD 2, z := p.getLsbD 1,
                   c := p.getLsbD 0 }
        pc := join h l }

/-- R266: a handler that leaves BRK's frame and `S` as BRK left them, and then executes RTI, resumes two bytes after
the BRK with the flags of before it. Rests on: the pushed address (D12) and the dropped bits (D13) are the spec's
own. -/
def Obligations.RtiReturnsFromBrk : Prop :=
  ∀ s t h : State, exec .brk s = .next t →
    h.fullMemory → h.sp = t.sp →
    (∀ k : Byte, k ∈ [(1 : Byte), 2, 3] → h.mem.read (stackAddr (t.sp + k)) = t.mem.read (stackAddr (t.sp + k))) →
    ∃ u, exec .rti h = .next u ∧ u.pc = s.pc + 1 ∧ u.flags = s.flags ∧ u.sp = s.sp

/-- R262: the flag byte on the stack tells BRK from an interrupt by bit 4, and always has bit 5 set (R30). Rests on:
that IRQ is masked by I is the spec's own (D15). Rests on: that IRQ is masked by I is the spec's own (D15). -/
def Obligations.BreakBitTellsBrkFromIrq : Prop :=
  ∀ s t : State,
    (exec .brk s = .next t → (t.mem.read (stackAddr (t.sp + 1))).getLsbD 4 = true ∧
      (t.mem.read (stackAddr (t.sp + 1))).getLsbD 5 = true) ∧
    (∀ nmi irq rest, s.env = .lines nmi irq :: rest → (nmi = true ∨ irq = true ∧ s.flags.i = false) →
      step s = .next t → (t.mem.read (stackAddr (t.sp + 1))).getLsbD 4 = false ∧
      (t.mem.read (stackAddr (t.sp + 1))).getLsbD 5 = true)

/-- R242, R244: NOP is one idle sub-cycle; an illegal opcode is an open number of them (log 6), which depends on the
opcode alone, and nothing else. Rests on: the number is an uninterpreted constant of Config, which holds for every
value (D14, log 6); a fallback of a byte that is not illegal has no encoding (log 13). -/
def Obligations.NopAndIllegalOpcodesDoNothing : Prop :=
  ∀ (op : Byte) (s : State),
    exec .nop s = .next (s.elapse [.idle]) ∧
    exec (.ill op) s = .next (s.elapse (List.replicate (Config.illegalExtraCycles op) .idle))

/-! ### Runs -/

/-- R273: a run that stops has taken at least one step, the predicate holds of what the host then sees, and of no
boundary before it but the first, which is not asked. Rests on: that the predicate is not asked before the first
step is the spec's own (D32); the bound on steps, and a reset inside a run as a step of it, are the model's (log
15). -/
def Obligations.RunStopsAtTheFirstBoundaryAfterAStep : Prop :=
  ∀ (stop : HostView → Bool) (fuel : Nat) (s t : State), runUntil stop fuel s = .stopped t →
    ∃ k, k < fuel ∧ Host.Core.run core (k + 1) s = .next t ∧ stop t.view = true ∧
      ∀ j u, 1 ≤ j → j ≤ k → Host.Core.run core j s = .next u → stop u.view = false
end

