-- ==== Sys2Proof/Laws/Bits.lean ====
section
/-! SUPPORT. The byte-order helpers as numbers. -/

namespace Sys2Proof

theorem join_toNat (h l : Byte) : (join h l).toNat = h.toNat * 256 + l.toNat := by
  rw [join, BitVec.toNat_append, ← Nat.shiftLeft_add_eq_or_of_lt (by simpa using l.isLt), Nat.shiftLeft_eq]

theorem hi_toNat (w : Word) : (hi w).toNat = w.toNat / 256 := by
  have := w.isLt
  simp only [hi, BitVec.extractLsb'_toNat, Nat.shiftRight_eq_div_pow]
  omega

theorem lo_toNat (w : Word) : (lo w).toNat = w.toNat % 256 := by
  simp [lo]

@[simp] theorem hi_join (h l : Byte) : hi (join h l) = h := by
  have := l.isLt
  exact BitVec.eq_of_toNat_eq (by rw [hi_toNat, join_toNat]; omega)

@[simp] theorem lo_join (h l : Byte) : lo (join h l) = l := by
  have := l.isLt
  exact BitVec.eq_of_toNat_eq (by rw [lo_toNat, join_toNat]; omega)

@[simp] theorem join_hi_lo (w : Word) : join (hi w) (lo w) = w :=
  BitVec.eq_of_toNat_eq (by rw [join_toNat, hi_toNat, lo_toNat]; omega)

theorem zext16_toNat (b : Byte) : (zext16 b).toNat = b.toNat := by
  have := b.isLt
  simp only [zext16, BitVec.toNat_setWidth]
  omega

theorem zext16_eq_join (b : Byte) : zext16 b = join 0 b :=
  BitVec.eq_of_toNat_eq (by simp [zext16_toNat, join_toNat])

theorem stackAddr_toNat (s : Byte) : (stackAddr s).toNat = 256 + s.toNat := by
  simp [stackAddr, join_toNat]

theorem stackAddr_inj {s s' : Byte} : stackAddr s = stackAddr s' ↔ s = s' := by
  constructor
  · intro h
    have := congrArg BitVec.toNat h
    rw [stackAddr_toNat, stackAddr_toNat] at this
    exact BitVec.eq_of_toNat_eq (by omega)
  · exact congrArg _

/-- An address above page 1 is no stack slot. -/
theorem ne_stackAddr {a : Word} (s : Byte) (h : 512 ≤ a.toNat) : a ≠ stackAddr s := fun e => by
  have := congrArg BitVec.toNat e
  rw [stackAddr_toNat] at this
  have := s.isLt
  omega

end Sys2Proof
end

