-- ==== Sys2Proof/Laws/Decode.lean ====
section
/-! SUPPORT. What the decoder reads under each kind of entry, and that the instructions an entry makes have the
length of its format (30_encoding.md R81, R82, R84). -/

namespace Sys2Proof

variable {op : Byte}

theorem decode_f1 {i : Instr} (h : entry op = .f1 i) (rest : List Byte) :
    decode (op :: rest) = .ok (i, rest) := by
  simp [decode, h]

theorem decode_illegal (h : entry op = .illegal) (rest : List Byte) :
    decode (op :: rest) = .ok (.ill op, rest) := by
  simp [decode, h]

theorem decode_f2 {make : Byte → Instr} (h : entry op = .f2 make) (b : Byte) (rest : List Byte) :
    decode (op :: b :: rest) = .ok (make b, rest) := by
  simp [decode, h]

theorem decode_f2_short {make : Byte → Instr} (h : entry op = .f2 make) :
    decode [op] = .error (.operandMissing op) := by
  simp [decode, h]

theorem decode_f3 {make : Word → Instr} (h : entry op = .f3 make) (l b : Byte) (rest : List Byte) :
    decode (op :: l :: b :: rest) = .ok (make (join b l), rest) := by
  simp [decode, h]

theorem decode_f3_short {make : Word → Instr} (h : entry op = .f3 make) (l : Byte) :
    decode [op] = .error (.operandMissing op) ∧ decode [op, l] = .error (.operandMissing op) := by
  simp [decode, h]

/-- The instructions an entry makes have the length of its format. -/
def HasFormatLength : Entry → Prop
  | .f1 i => i.length = 1
  | .f2 make => ∀ b, (make b).length = 2
  | .f3 make => ∀ w, (make w).length = 3
  | .illegal => True

theorem entries_have_format_length : ∀ row ∈ opcodeMap, ∀ e ∈ row, HasFormatLength e := by
  simp [opcodeMap, row0, row1, row2, row3, row4, row5, row6, row7, row8, row9, rowA, rowB, rowC, rowD, rowE,
    rowF, HasFormatLength, Instr.length, Instr.mode, Operand.mode, ShiftOperand.mode, JumpOperand.mode, Mode.length]

/-- Every opcode byte's entry is one of the map (R84). -/
theorem entry_mem (op : Byte) : ∃ row ∈ opcodeMap, entry op ∈ row := by
  have hop := op.isLt
  have hlen : ∀ row ∈ opcodeMap, row.length = 16 := by decide
  have hi : op.toNat / 16 < opcodeMap.length := by
    show op.toNat / 16 < 16
    omega
  have hrow := List.getElem_mem hi
  have hj : op.toNat % 16 < (opcodeMap[op.toNat / 16]).length := by
    rw [hlen _ hrow]
    omega
  refine ⟨_, hrow, ?_⟩
  simp only [entry, List.getD_eq_getElem?_getD, List.getElem?_eq_getElem hi, List.getElem?_eq_getElem hj,
    Option.getD_some]
  exact List.getElem_mem hj

theorem entry_has_format_length (op : Byte) : HasFormatLength (entry op) := by
  obtain ⟨row, hrow, he⟩ := entry_mem op
  exact entries_have_format_length row hrow _ he

end Sys2Proof
end

