-- ==== Sys2Proof/Laws/Memory.lean ====
section
/-! SUPPORT. The memory: read after write, the canonical form, and that canonical memories with the same bytes
are the same list. -/

namespace Sys2Proof.Machine.Memory

@[simp] theorem get_nil (a : Nat) : get [] a = fill := rfl

theorem get_cons (k : Nat) (b : Byte) (m : Memory) (a : Nat) :
    get ((k, b) :: m) a = if k = a then b else get m a := rfl

theorem get_without_same (m : Memory) (a : Nat) : (m.without a).get a = fill := by
  induction m with
  | nil => rfl
  | cons cell rest ih =>
    obtain ⟨k, b⟩ := cell
    by_cases h : k = a <;> simp_all [without, get_cons]

theorem get_without_other (m : Memory) {a b : Nat} (h : b ≠ a) : (m.without a).get b = m.get b := by
  induction m with
  | nil => rfl
  | cons cell rest ih =>
    obtain ⟨k, v⟩ := cell
    by_cases hk : k = a
    · have : k ≠ b := fun hb => h (hb.symm.trans hk)
      simp_all [without, get_cons]
    · simp_all [without, get_cons]

theorem get_insertCell_same (m : Memory) (a : Nat) (v : Byte) (h : ∀ cell ∈ m, cell.1 ≠ a) :
    (m.insertCell a v).get a = v := by
  induction m with
  | nil => simp [insertCell, get_cons]
  | cons cell rest ih =>
    obtain ⟨k, b⟩ := cell
    have hk : k ≠ a := h (k, b) (by simp)
    have hr := ih fun c hc => h c (by simp [hc])
    by_cases hlt : a < k <;> simp [insertCell, hlt, get_cons, hk, hr]

theorem get_insertCell_other (m : Memory) {a b : Nat} (v : Byte) (h : b ≠ a) :
    (m.insertCell a v).get b = m.get b := by
  induction m with
  | nil => simp [insertCell, get_cons, h.symm]
  | cons cell rest ih =>
    obtain ⟨k, w⟩ := cell
    by_cases hlt : a < k <;> simp [insertCell, hlt, get_cons, h.symm, ih]

theorem mem_without {m : Memory} {a : Nat} {cell : Host.Cell} :
    cell ∈ m.without a ↔ cell ∈ m ∧ cell.1 ≠ a := by
  simp [without]

theorem mem_insertCell {m : Memory} {a : Nat} {v : Byte} {cell : Host.Cell} :
    cell ∈ m.insertCell a v ↔ cell = (a, v) ∨ cell ∈ m := by
  induction m with
  | nil => simp [insertCell]
  | cons c rest ih =>
    obtain ⟨k, b⟩ := c
    by_cases hlt : a < k
    · simp [insertCell, hlt]
    · simp only [insertCell, hlt, if_false, List.mem_cons, ih]
      tauto

/-! ### Read after write -/

theorem get_set_same (m : Memory) (a : Nat) (v : Byte) : (m.set a v).get a = v := by
  unfold set
  split
  · rw [get_without_same, ‹v = fill›]
  · exact get_insertCell_same _ _ _ fun c hc => (mem_without.1 hc).2

theorem get_set_other (m : Memory) {a b : Nat} (v : Byte) (h : b ≠ a) : (m.set a v).get b = m.get b := by
  unfold set
  split
  · exact get_without_other m h
  · rw [get_insertCell_other _ _ h, get_without_other m h]

@[simp] theorem read_write_same (m : Memory) (a : Word) (v : Byte) : (m.write a v).read a = v :=
  get_set_same m a.toNat v

theorem read_write_other (m : Memory) {a b : Word} (v : Byte) (h : b ≠ a) :
    (m.write a v).read b = m.read b :=
  get_set_other m v fun e => h (BitVec.eq_of_toNat_eq e)

theorem read_write (m : Memory) (a b : Word) (v : Byte) :
    (m.write a v).read b = if b = a then v else m.read b := by
  split
  · subst b; exact read_write_same m a v
  · exact read_write_other m v ‹_›

/-! ### The canonical form -/

theorem wf_nil : wf [] := ⟨List.Pairwise.nil, fun _ h => nomatch h⟩

theorem wf_without {m : Memory} (a : Nat) (h : m.wf) : (m.without a).wf :=
  ⟨h.1.filter _, fun c hc => h.2 c (mem_without.1 hc).1⟩

theorem pairwise_insertCell {m : Memory} {a : Nat} (v : Byte)
    (h : m.Pairwise (fun p q => p.1 < q.1)) (hne : ∀ cell ∈ m, cell.1 ≠ a) :
    (m.insertCell a v).Pairwise (fun p q => p.1 < q.1) := by
  induction m with
  | nil => simp [insertCell]
  | cons c rest ih =>
    obtain ⟨k, b⟩ := c
    obtain ⟨hk, hr⟩ := List.pairwise_cons.1 h
    have hka : k ≠ a := hne (k, b) (by simp)
    by_cases hlt : a < k
    · simp only [insertCell, hlt, if_true, List.pairwise_cons]
      refine ⟨fun q hq => ?_, hk, hr⟩
      rcases List.mem_cons.1 hq with rfl | hq
      · exact hlt
      · exact lt_trans hlt (hk q hq)
    · simp only [insertCell, hlt, if_false, List.pairwise_cons]
      refine ⟨fun q hq => ?_, ih hr fun c hc => hne c (by simp [hc])⟩
      rcases mem_insertCell.1 hq with rfl | hq
      · show k < a
        omega
      · exact hk q hq

theorem wf_set {m : Memory} {a : Nat} (v : Byte) (ha : a < 65536) (h : m.wf) : (m.set a v).wf := by
  unfold set
  split
  · exact wf_without a h
  · refine ⟨pairwise_insertCell v (wf_without a h).1 fun c hc => (mem_without.1 hc).2, fun c hc => ?_⟩
    rcases mem_insertCell.1 hc with rfl | hc
    · exact ⟨ha, ‹_›⟩
    · exact (wf_without a h).2 c hc

/-- A write keeps the canonical form. -/
theorem wf_write {m : Memory} (a : Word) (v : Byte) (h : m.wf) : (m.write a v).wf :=
  wf_set v a.isLt h

/-- Loading an image keeps the canonical form. -/
theorem wf_load {m : Memory} (a : Word) (bytes : List Byte) (h : m.wf) : (m.load a bytes).wf := by
  induction bytes generalizing m a with
  | nil => exact h
  | cons b rest ih => exact ih _ (wf_write a b h)

/-- A write adds no cell but at its own address. -/
theorem mem_write {m : Memory} {a : Word} {v : Byte} {cell : Host.Cell} (h : cell ∈ m.write a v) :
    cell.1 = a.toNat ∨ cell ∈ m := by
  unfold write set at h
  split at h
  · exact .inr (mem_without.1 h).1
  · rcases mem_insertCell.1 h with rfl | h
    · exact .inl rfl
    · exact .inr (mem_without.1 h).1

theorem get_eq_fill {m : Memory} {a : Nat} (h : ∀ cell ∈ m, a < cell.1) : m.get a = fill := by
  induction m with
  | nil => rfl
  | cons c rest ih =>
    obtain ⟨k, b⟩ := c
    have hk : a < k := h (k, b) (by simp)
    rw [get_cons, if_neg (by omega), ih fun c hc => h c (by simp [hc])]

/-- Canonical memories that read the same at every address are the same list. -/
theorem eq_of_get_eq {m m' : Memory} (h : m.wf) (h' : m'.wf) (he : ∀ a, m.get a = m'.get a) : m = m' := by
  induction m generalizing m' with
  | nil =>
    cases m' with
    | nil => rfl
    | cons c rest =>
      have := he c.1
      rw [get_nil, show c = (c.1, c.2) from rfl, get_cons, if_pos rfl] at this
      exact absurd this.symm (h'.2 c (by simp)).2
  | cons c rest ih =>
    cases m' with
    | nil =>
      have := he c.1
      rw [get_nil, show c = (c.1, c.2) from rfl, get_cons, if_pos rfl] at this
      exact absurd this (h.2 c (by simp)).2
    | cons c' rest' =>
      obtain ⟨k, b⟩ := c
      obtain ⟨k', b'⟩ := c'
      obtain ⟨hk, hr⟩ := List.pairwise_cons.1 h.1
      obtain ⟨hk', hr'⟩ := List.pairwise_cons.1 h'.1
      have hb : b ≠ fill := (h.2 (k, b) (by simp)).2
      have hb' : b' ≠ fill := (h'.2 (k', b') (by simp)).2
      have hkk : k = k' := by
        by_contra hne
        rcases Nat.lt_or_gt_of_ne hne with hlt | hlt
        · have hf : get ((k', b') :: rest') k = fill := get_eq_fill fun c hc => by
            rcases List.mem_cons.1 hc with rfl | hc
            · exact hlt
            · exact lt_trans hlt (hk' c hc)
          have := he k
          rw [get_cons, if_pos rfl, hf] at this
          exact hb this
        · have hf : get ((k, b) :: rest) k' = fill := get_eq_fill fun c hc => by
            rcases List.mem_cons.1 hc with rfl | hc
            · exact hlt
            · exact lt_trans hlt (hk c hc)
          have := he k'
          rw [hf, get_cons, if_pos rfl] at this
          exact hb' this.symm
      subst hkk
      have hbb : b = b' := by simpa [get_cons] using he k
      subst hbb
      have hrest : rest = rest' := ih ⟨hr, fun c hc => h.2 c (by simp [hc])⟩
        ⟨hr', fun c hc => h'.2 c (by simp [hc])⟩ fun a => by
          by_cases ha : k = a
          · subst ha
            rw [get_eq_fill fun c hc => hk c hc, get_eq_fill fun c hc => hk' c hc]
          · simpa [get_cons, ha] using he a
      rw [hrest]

end Sys2Proof.Machine.Memory
end

