-- ==== Sys2Proof/Laws/State.lean ====
section
/-! SUPPORT. One lemma per field for each named update of State, so that no proof unfolds one. -/

namespace Sys2Proof.Machine

variable (e : BusEvent) (h : List BusEvent) (o : Operand) (v : Byte) (n : Nat) (s : State)

/-! ### One sub-cycle -/

@[simp] theorem tick_a : (tick e s).a = s.a := rfl
@[simp] theorem tick_x : (tick e s).x = s.x := rfl
@[simp] theorem tick_y : (tick e s).y = s.y := rfl
@[simp] theorem tick_sp : (tick e s).sp = s.sp := rfl
@[simp] theorem tick_pc : (tick e s).pc = s.pc := rfl
@[simp] theorem tick_flags : (tick e s).flags = s.flags := rfl
@[simp] theorem tick_mem : (tick e s).mem = s.mem := rfl
@[simp] theorem tick_memSize : (tick e s).memSize = s.memSize := rfl
@[simp] theorem tick_cyc : (tick e s).cyc = s.cyc + 1 := rfl
@[simp] theorem tick_ea : (tick e s).ea = s.ea := rfl
@[simp] theorem tick_dl : (tick e s).dl = s.dl := rfl
@[simp] theorem tick_pageCross : (tick e s).pageCross = s.pageCross := rfl
@[simp] theorem tick_bus : (tick e s).bus = s.bus ++ [e] := rfl
@[simp] theorem tick_env : (tick e s).env = s.env := rfl
@[simp] theorem tick_draws : (tick e s).draws = s.draws := rfl

@[simp] theorem idle_a : (idle s).a = s.a := rfl
@[simp] theorem idle_x : (idle s).x = s.x := rfl
@[simp] theorem idle_y : (idle s).y = s.y := rfl
@[simp] theorem idle_sp : (idle s).sp = s.sp := rfl
@[simp] theorem idle_pc : (idle s).pc = s.pc := rfl
@[simp] theorem idle_flags : (idle s).flags = s.flags := rfl
@[simp] theorem idle_mem : (idle s).mem = s.mem := rfl
@[simp] theorem idle_memSize : (idle s).memSize = s.memSize := rfl
@[simp] theorem idle_cyc : (idle s).cyc = s.cyc + 1 := rfl
@[simp] theorem idle_ea : (idle s).ea = s.ea := rfl
@[simp] theorem idle_dl : (idle s).dl = s.dl := rfl
@[simp] theorem idle_pageCross : (idle s).pageCross = s.pageCross := rfl
@[simp] theorem idle_bus : (idle s).bus = s.bus ++ [.idle] := rfl
@[simp] theorem idle_env : (idle s).env = s.env := rfl
@[simp] theorem idle_draws : (idle s).draws = s.draws := rfl

/-! ### A list of sub-cycles -/

@[simp] theorem elapse_a : (s.elapse h).a = s.a := rfl
@[simp] theorem elapse_x : (s.elapse h).x = s.x := rfl
@[simp] theorem elapse_y : (s.elapse h).y = s.y := rfl
@[simp] theorem elapse_sp : (s.elapse h).sp = s.sp := rfl
@[simp] theorem elapse_pc : (s.elapse h).pc = s.pc := rfl
@[simp] theorem elapse_flags : (s.elapse h).flags = s.flags := rfl
@[simp] theorem elapse_mem : (s.elapse h).mem = s.mem := rfl
@[simp] theorem elapse_memSize : (s.elapse h).memSize = s.memSize := rfl
@[simp] theorem elapse_cyc : (s.elapse h).cyc = s.cyc + h.length := rfl
@[simp] theorem elapse_ea : (s.elapse h).ea = s.ea := rfl
@[simp] theorem elapse_dl : (s.elapse h).dl = s.dl := rfl
@[simp] theorem elapse_pageCross : (s.elapse h).pageCross = s.pageCross := rfl
@[simp] theorem elapse_bus : (s.elapse h).bus = s.bus ++ h := rfl
@[simp] theorem elapse_env : (s.elapse h).env = s.env := rfl
@[simp] theorem elapse_draws : (s.elapse h).draws = s.draws := rfl

/-! ### The start of a step -/

@[simp] theorem beginStep_a : (beginStep s).a = s.a := rfl
@[simp] theorem beginStep_x : (beginStep s).x = s.x := rfl
@[simp] theorem beginStep_y : (beginStep s).y = s.y := rfl
@[simp] theorem beginStep_sp : (beginStep s).sp = s.sp := rfl
@[simp] theorem beginStep_pc : (beginStep s).pc = s.pc := rfl
@[simp] theorem beginStep_flags : (beginStep s).flags = s.flags := rfl
@[simp] theorem beginStep_mem : (beginStep s).mem = s.mem := rfl
@[simp] theorem beginStep_memSize : (beginStep s).memSize = s.memSize := rfl
@[simp] theorem beginStep_cyc : (beginStep s).cyc = s.cyc := rfl
@[simp] theorem beginStep_ea : (beginStep s).ea = Config.freeWord s.draws := rfl
@[simp] theorem beginStep_dl : (beginStep s).dl = Config.freeByte s.draws := rfl
@[simp] theorem beginStep_pageCross : (beginStep s).pageCross = s.pageCross := rfl
@[simp] theorem beginStep_bus : (beginStep s).bus = [] := rfl
@[simp] theorem beginStep_env : (beginStep s).env = s.env := rfl
@[simp] theorem beginStep_draws : (beginStep s).draws = s.draws + 1 := rfl

@[simp] theorem fetched_a : (s.fetched n).a = s.a := rfl
@[simp] theorem fetched_x : (s.fetched n).x = s.x := rfl
@[simp] theorem fetched_y : (s.fetched n).y = s.y := rfl
@[simp] theorem fetched_sp : (s.fetched n).sp = s.sp := rfl
@[simp] theorem fetched_pc : (s.fetched n).pc = s.pc + BitVec.ofNat 16 n := rfl
@[simp] theorem fetched_flags : (s.fetched n).flags = s.flags := rfl
@[simp] theorem fetched_mem : (s.fetched n).mem = s.mem := rfl
@[simp] theorem fetched_memSize : (s.fetched n).memSize = s.memSize := rfl
@[simp] theorem fetched_cyc : (s.fetched n).cyc = s.cyc + n := rfl
@[simp] theorem fetched_ea : (s.fetched n).ea = Config.freeWord s.draws := rfl
@[simp] theorem fetched_dl : (s.fetched n).dl = Config.freeByte s.draws := rfl
@[simp] theorem fetched_pageCross : (s.fetched n).pageCross = false := rfl
@[simp] theorem fetched_bus : (s.fetched n).bus = fetchHistory n s := rfl
@[simp] theorem fetched_env : (s.fetched n).env = s.env.tail := rfl
@[simp] theorem fetched_draws : (s.fetched n).draws = s.draws + 1 := rfl

/-! ### An operand read, written, modified -/

@[simp] theorem afterRead_a : (s.afterRead o).a = s.a := rfl
@[simp] theorem afterRead_x : (s.afterRead o).x = s.x := rfl
@[simp] theorem afterRead_y : (s.afterRead o).y = s.y := rfl
@[simp] theorem afterRead_sp : (s.afterRead o).sp = s.sp := rfl
@[simp] theorem afterRead_pc : (s.afterRead o).pc = s.pc := rfl
@[simp] theorem afterRead_flags : (s.afterRead o).flags = s.flags := rfl
@[simp] theorem afterRead_mem : (s.afterRead o).mem = s.mem := rfl
@[simp] theorem afterRead_memSize : (s.afterRead o).memSize = s.memSize := rfl
@[simp] theorem afterRead_cyc : (s.afterRead o).cyc = s.cyc + (readHistory o s).length := rfl
@[simp] theorem afterRead_ea : (s.afterRead o).ea = effAddr o s := rfl
@[simp] theorem afterRead_dl : (s.afterRead o).dl = operandByte o s := rfl
@[simp] theorem afterRead_pageCross : (s.afterRead o).pageCross = (carries o s).getD s.pageCross := rfl
@[simp] theorem afterRead_bus : (s.afterRead o).bus = s.bus ++ readHistory o s := rfl
@[simp] theorem afterRead_env : (s.afterRead o).env = s.env := rfl
@[simp] theorem afterRead_draws : (s.afterRead o).draws = s.draws := rfl

@[simp] theorem afterWrite_a : (s.afterWrite o v).a = s.a := rfl
@[simp] theorem afterWrite_x : (s.afterWrite o v).x = s.x := rfl
@[simp] theorem afterWrite_y : (s.afterWrite o v).y = s.y := rfl
@[simp] theorem afterWrite_sp : (s.afterWrite o v).sp = s.sp := rfl
@[simp] theorem afterWrite_pc : (s.afterWrite o v).pc = s.pc := rfl
@[simp] theorem afterWrite_flags : (s.afterWrite o v).flags = s.flags := rfl
@[simp] theorem afterWrite_mem : (s.afterWrite o v).mem = s.mem.write (effAddr o s) v := rfl
@[simp] theorem afterWrite_memSize : (s.afterWrite o v).memSize = s.memSize := rfl
@[simp] theorem afterWrite_cyc : (s.afterWrite o v).cyc = s.cyc + (writeHistory o v s).length := rfl
@[simp] theorem afterWrite_ea : (s.afterWrite o v).ea = effAddr o s := rfl
@[simp] theorem afterWrite_dl : (s.afterWrite o v).dl = s.dl := rfl
@[simp] theorem afterWrite_pageCross : (s.afterWrite o v).pageCross = (carries o s).getD s.pageCross := rfl
@[simp] theorem afterWrite_bus : (s.afterWrite o v).bus = s.bus ++ writeHistory o v s := rfl
@[simp] theorem afterWrite_env : (s.afterWrite o v).env = s.env := rfl
@[simp] theorem afterWrite_draws : (s.afterWrite o v).draws = s.draws := rfl

@[simp] theorem afterModify_a : (s.afterModify o v).a = s.a := rfl
@[simp] theorem afterModify_x : (s.afterModify o v).x = s.x := rfl
@[simp] theorem afterModify_y : (s.afterModify o v).y = s.y := rfl
@[simp] theorem afterModify_sp : (s.afterModify o v).sp = s.sp := rfl
@[simp] theorem afterModify_pc : (s.afterModify o v).pc = s.pc := rfl
@[simp] theorem afterModify_flags : (s.afterModify o v).flags = s.flags := rfl
@[simp] theorem afterModify_mem : (s.afterModify o v).mem = s.mem.write (effAddr o s) v := rfl
@[simp] theorem afterModify_memSize : (s.afterModify o v).memSize = s.memSize := rfl
@[simp] theorem afterModify_cyc : (s.afterModify o v).cyc = s.cyc + (modifyHistory o v s).length := rfl
@[simp] theorem afterModify_ea : (s.afterModify o v).ea = effAddr o s := rfl
@[simp] theorem afterModify_dl : (s.afterModify o v).dl = s.mem.read (effAddr o s) := rfl
@[simp] theorem afterModify_pageCross : (s.afterModify o v).pageCross = (carries o s).getD s.pageCross := rfl
@[simp] theorem afterModify_bus : (s.afterModify o v).bus = s.bus ++ modifyHistory o v s := rfl
@[simp] theorem afterModify_env : (s.afterModify o v).env = s.env := rfl
@[simp] theorem afterModify_draws : (s.afterModify o v).draws = s.draws := rfl

@[simp] theorem addWithCarry_a : (addWithCarry v s).a = addResult s.a v s.flags.c := rfl
@[simp] theorem addWithCarry_x : (addWithCarry v s).x = s.x := rfl
@[simp] theorem addWithCarry_y : (addWithCarry v s).y = s.y := rfl
@[simp] theorem addWithCarry_sp : (addWithCarry v s).sp = s.sp := rfl
@[simp] theorem addWithCarry_pc : (addWithCarry v s).pc = s.pc := rfl
@[simp] theorem addWithCarry_flags : (addWithCarry v s).flags = addFlags s.a v s.flags := rfl
@[simp] theorem addWithCarry_mem : (addWithCarry v s).mem = s.mem := rfl
@[simp] theorem addWithCarry_memSize : (addWithCarry v s).memSize = s.memSize := rfl
@[simp] theorem addWithCarry_cyc : (addWithCarry v s).cyc = s.cyc := rfl
@[simp] theorem addWithCarry_ea : (addWithCarry v s).ea = s.ea := rfl
@[simp] theorem addWithCarry_dl : (addWithCarry v s).dl = s.dl := rfl
@[simp] theorem addWithCarry_pageCross : (addWithCarry v s).pageCross = s.pageCross := rfl
@[simp] theorem addWithCarry_bus : (addWithCarry v s).bus = s.bus := rfl
@[simp] theorem addWithCarry_env : (addWithCarry v s).env = s.env := rfl
@[simp] theorem addWithCarry_draws : (addWithCarry v s).draws = s.draws := rfl

@[simp] theorem resolveRelative_a : (resolveRelative v s).a = s.a := rfl
@[simp] theorem resolveRelative_x : (resolveRelative v s).x = s.x := rfl
@[simp] theorem resolveRelative_y : (resolveRelative v s).y = s.y := rfl
@[simp] theorem resolveRelative_sp : (resolveRelative v s).sp = s.sp := rfl
@[simp] theorem resolveRelative_pc : (resolveRelative v s).pc = s.pc := rfl
@[simp] theorem resolveRelative_flags : (resolveRelative v s).flags = s.flags := rfl
@[simp] theorem resolveRelative_mem : (resolveRelative v s).mem = s.mem := rfl
@[simp] theorem resolveRelative_memSize : (resolveRelative v s).memSize = s.memSize := rfl
@[simp] theorem resolveRelative_cyc : (resolveRelative v s).cyc = s.cyc := rfl
@[simp] theorem resolveRelative_ea : (resolveRelative v s).ea = s.pc + sext16 v := rfl
@[simp] theorem resolveRelative_dl : (resolveRelative v s).dl = s.dl := rfl
@[simp] theorem resolveRelative_pageCross : (resolveRelative v s).pageCross = s.pageCross := rfl
@[simp] theorem resolveRelative_bus : (resolveRelative v s).bus = s.bus := rfl
@[simp] theorem resolveRelative_env : (resolveRelative v s).env = s.env := rfl
@[simp] theorem resolveRelative_draws : (resolveRelative v s).draws = s.draws := rfl

/-! ### Sub-cycles add up -/

theorem tick_eq_elapse : tick e s = s.elapse [e] := rfl

theorem idle_eq_elapse : idle s = s.elapse [.idle] := rfl

theorem elapse_nil : s.elapse [] = s := by
  cases s; simp [State.elapse]

theorem elapse_elapse (h' : List BusEvent) : (s.elapse h).elapse h' = s.elapse (h ++ h') := by
  simp [State.elapse, Nat.add_assoc]

/-! ### What the flag operations leave -/

@[simp] theorem setZN_c (f : Flags) : (setZN v f).c = f.c := rfl
@[simp] theorem setZN_v (f : Flags) : (setZN v f).v = f.v := rfl
@[simp] theorem setZN_d (f : Flags) : (setZN v f).d = f.d := rfl
@[simp] theorem setZN_i (f : Flags) : (setZN v f).i = f.i := rfl
@[simp] theorem setZN_z (f : Flags) : (setZN v f).z = (v == 0) := rfl
@[simp] theorem setZN_n (f : Flags) : (setZN v f).n = v.getLsbD 7 := rfl

end Sys2Proof.Machine
end

