-- ==== Sys2Proof/Laws/Ops.lean ====
section
/-! SUPPORT. One lemma for each shared operation that says everything it can do: it answers the one result
given in closed form, or it raises `BusRange` of an address the bus does not back. -/

namespace Sys2Proof.Machine

/-- An operation on a bus of `n` bytes answers `r`, unless a transaction leaves the bus. -/
def Answers {α : Type} (n : Nat) (e : Except Fault α) (r : α) : Prop :=
  e = .ok r ∨ ∃ (a : Word) (t : State), e = .error (.busRange a t) ∧ n ≤ a.toNat

namespace Answers

variable {α β : Type} {n : Nat}

theorem ok (r : α) : Answers n (.ok r) r := .inl rfl

theorem congr {e : Except Fault α} {r r' : α} (h : Answers n e r) (hr : r = r') : Answers n e r' := hr ▸ h

/-- Two operations in a row: what the second answers from what the first answers. -/
theorem bind {e : Except Fault α} {r : α} {f : α → Except Fault β} {r' : β}
    (h : Answers n e r) (hf : Answers n (f r) r') : Answers n (e >>= f) r' := by
  rcases h with rfl | ⟨a, u, rfl, ha⟩
  · exact hf
  · exact .inr ⟨a, u, rfl, ha⟩

/-- The only result. -/
theorem eq_of_ok {e : Except Fault α} {r x : α} (h : Answers n e r) (hx : e = .ok x) : x = r := by
  rcases h with h | ⟨a, u, h, -⟩
  · rw [h] at hx; cases hx; rfl
  · rw [h] at hx; cases hx

/-- The only fault. -/
theorem of_error {e : Except Fault α} {r : α} {f : Fault} (h : Answers n e r) (hx : e = .error f) :
    ∃ (a : Word) (t : State), f = .busRange a t ∧ n ≤ a.toNat := by
  rcases h with h | ⟨a, u, h, ha⟩
  · rw [h] at hx; cases hx
  · rw [h] at hx; cases hx; exact ⟨a, u, rfl, ha⟩

/-- On a bus of 65536 bytes the operation answers (R55). -/
theorem full {e : Except Fault α} {r : α} (h : Answers n e r) (hn : n = 65536) : e = .ok r := by
  rcases h with h | ⟨a, u, -, ha⟩
  · exact h
  · have := a.isLt
    omega

end Answers

/-! ### Sub-cycles -/

theorem memRead_answers (a : Word) (s : State) :
    Answers s.memSize (memRead a s) (s.mem.read a, s.elapse [.read a (s.mem.read a)]) := by
  unfold memRead
  split
  · exact .ok _
  · exact .inr ⟨a, _, rfl, by omega⟩

theorem memWrite_answers (a : Word) (v : Byte) (s : State) :
    Answers s.memSize (memWrite a v s) { s.elapse [.write a v] with mem := s.mem.write a v } := by
  unfold memWrite
  split
  · exact .ok _
  · exact .inr ⟨a, _, rfl, by omega⟩

/-! ### The stack -/

theorem push_answers (v : Byte) (s : State) :
    Answers s.memSize (push v s) { s.elapse [.write (stackAddr s.sp) v] with
      mem := s.mem.write (stackAddr s.sp) v, sp := s.sp - 1 } :=
  (memWrite_answers _ v s).bind (.ok _)

theorem pull_answers (s : State) :
    Answers s.memSize (pull s) (s.mem.read (stackAddr (s.sp + 1)),
      { s.elapse [.read (stackAddr (s.sp + 1)) (s.mem.read (stackAddr (s.sp + 1)))] with sp := s.sp + 1 }) :=
  memRead_answers _ _

theorem pushWord_answers (w : Word) (s : State) :
    Answers s.memSize (pushWord w s)
      { s.elapse [.write (stackAddr s.sp) (hi w), .write (stackAddr (s.sp - 1)) (lo w)] with
        mem := (s.mem.write (stackAddr s.sp) (hi w)).write (stackAddr (s.sp - 1)) (lo w)
        sp := s.sp - 2 } := by
  refine (push_answers (hi w) s).bind ((push_answers (lo w) _).congr ?_)
  simp [State.elapse, BitVec.sub_sub]

theorem pullWord_answers (s : State) :
    Answers s.memSize (pullWord s)
      (join (s.mem.read (stackAddr (s.sp + 2))) (s.mem.read (stackAddr (s.sp + 1))),
        { s.elapse [.read (stackAddr (s.sp + 1)) (s.mem.read (stackAddr (s.sp + 1))),
            .read (stackAddr (s.sp + 2)) (s.mem.read (stackAddr (s.sp + 2)))] with sp := s.sp + 2 }) := by
  refine (pull_answers s).bind ((pull_answers _).bind ((Answers.ok _).congr ?_))
  simp [State.elapse, BitVec.add_assoc]

/-! ### Exceptions -/

theorem readVector_answers (a : Word) (s : State) :
    Answers s.memSize (readVector a s) (s.mem.wordAt a,
      s.elapse [.read a (s.mem.read a), .read (a + 1) (s.mem.read (a + 1))]) :=
  (memRead_answers a s).bind ((memRead_answers (a + 1) _).bind ((Answers.ok _).congr (by
    simp [State.elapse, Memory.wordAt])))

/-- A vector lies outside the stack page, so the frame does not change it. -/
theorem read_pushFrame_other {a : Word} (brk : Bool) (pc : Word) (s : State) (h : 512 ≤ a.toNat) :
    (pushFrame brk pc s).read a = s.mem.read a := by
  simp [pushFrame, Memory.read_write, ne_stackAddr _ h]

theorem enterException_answers (brk : Bool) {vec : Word} (s : State) (h : 512 ≤ vec.toNat)
    (h' : 512 ≤ (vec + 1).toNat) :
    Answers s.memSize (enterException brk vec s)
      { s.elapse [.write (stackAddr s.sp) (hi s.pc), .write (stackAddr (s.sp - 1)) (lo s.pc),
          .write (stackAddr (s.sp - 2)) (packP brk s.flags),
          .read vec (s.mem.read vec), .read (vec + 1) (s.mem.read (vec + 1))] with
        mem := pushFrame brk s.pc s
        sp := s.sp - 3
        flags := { s.flags with i := true }
        pc := join (s.mem.read (vec + 1)) (s.mem.read vec) } := by
  refine (pushWord_answers s.pc s).bind ((push_answers _ _).bind ((readVector_answers vec _).bind
    ((Answers.ok _).congr ?_)))
  unfold Memory.wordAt
  generalize vec + 1 = vec' at h' ⊢
  simp [State.elapse, BitVec.sub_sub, pushFrame, Memory.read_write, ne_stackAddr _ h, ne_stackAddr _ h']

theorem returnFromException_answers (s : State) :
    Answers s.memSize (returnFromException s)
      { s.elapse [.read (stackAddr (s.sp + 1)) (s.mem.read (stackAddr (s.sp + 1))),
          .read (stackAddr (s.sp + 2)) (s.mem.read (stackAddr (s.sp + 2))),
          .read (stackAddr (s.sp + 3)) (s.mem.read (stackAddr (s.sp + 3)))] with
        sp := s.sp + 3
        flags := unpackP (s.mem.read (stackAddr (s.sp + 1)))
        pc := join (s.mem.read (stackAddr (s.sp + 3))) (s.mem.read (stackAddr (s.sp + 2))) } := by
  refine (pull_answers s).bind ((pullWord_answers _).bind ((Answers.ok _).congr ?_))
  simp [State.elapse, BitVec.add_assoc]

/-! ### Reset -/

/-- The reset step reads the vector without a sub-cycle, so only a bus that backs it answers (R280). -/
theorem resetStep_answers (s : State) :
    Answers s.memSize (resetStep s) { s with
      a := Config.freeByte s.draws, x := Config.freeByte (s.draws + 1), y := Config.freeByte (s.draws + 2)
      dl := Config.freeByte (s.draws + 3), ea := Config.freeWord s.draws, pageCross := Config.freeBit s.draws
      draws := s.draws + 4
      pc := s.mem.wordAt Config.vecReset, sp := Config.resetS, flags := Config.resetFlags, cyc := 0, bus := [] } := by
  unfold resetStep
  split
  · exact .inr ⟨_, _, rfl, by omega⟩
  · split
    · exact .inr ⟨_, _, rfl, by omega⟩
    · exact .ok _

end Sys2Proof.Machine
end

