-- ==== Sys2Proof/Laws/Operands.lean ====
section
/-! SUPPORT. What the resolvers and the operand accesses do, in the closed forms of Machine/Effective.lean. -/

namespace Sys2Proof.Machine

theorem readPointer_answers (z : Byte) (s : State) :
    Answers s.memSize (readPointer z s) (pageZeroWord s.mem z, s.elapse (pointerHistory s.mem z)) :=
  (memRead_answers _ s).bind ((memRead_answers _ _).bind ((Answers.ok _).congr (by
    simp [State.elapse, pageZeroWord, pointerHistory])))

/-- Indexing a base spends the page-cross sub-cycle of R116. -/
theorem indexBase_eq (cls : Access) (base : Word) (r : Byte) (s : State) :
    indexBase cls base r s =
      { s.elapse (crossHistory cls (256 ≤ (lo base).toNat + r.toNat)) with
        pageCross := 256 ≤ (lo base).toNat + r.toNat, ea := base + zext16 r } := by
  cases cls <;> by_cases h : 256 ≤ (lo base).toNat + r.toNat <;>
    simp [indexBase, pageCrossCycle, crossHistory, State.elapse, idle, tick, h]

/-- A resolver sets `EA` and `page_cross` and spends the sub-cycles R130 gives the mode. -/
theorem resolve_answers (cls : Access) (o : Operand) (s : State) :
    Answers s.memSize (resolve cls o s) { s.elapse (resolveHistory cls o s) with
      ea := effAddr o s, pageCross := (carries o s).getD s.pageCross } := by
  cases o with
  | imm b => exact (Answers.ok _).congr (by simp [State.elapse, resolveHistory, effAddr, carries])
  | zp b => exact (Answers.ok _).congr (by simp [State.elapse, resolveHistory, effAddr, carries])
  | zpx b => exact (Answers.ok _).congr (by simp [State.elapse, resolveHistory, effAddr, carries, idle, tick])
  | zpy b => exact (Answers.ok _).congr (by simp [State.elapse, resolveHistory, effAddr, carries, idle, tick])
  | abs w => exact (Answers.ok _).congr (by simp [State.elapse, resolveHistory, effAddr, carries])
  | abx w =>
    exact (Answers.ok _).congr (by rw [indexBase_eq]; simp [State.elapse, resolveHistory, effAddr, carries])
  | aby w =>
    exact (Answers.ok _).congr (by rw [indexBase_eq]; simp [State.elapse, resolveHistory, effAddr, carries])
  | izx b =>
    exact (readPointer_answers _ (idle s)).bind ((Answers.ok _).congr (by
      simp [State.elapse, resolveHistory, effAddr, carries, idle, tick, pointerHistory]))
  | izy b =>
    exact (readPointer_answers b s).bind ((Answers.ok _).congr (by
      rw [indexBase_eq]; simp [State.elapse, resolveHistory, effAddr, carries, pointerHistory]
      omega))

theorem readEA_answers (s : State) :
    Answers s.memSize (readEA s) (s.mem.read s.ea,
      { s.elapse [.read s.ea (s.mem.read s.ea)] with dl := s.mem.read s.ea }) :=
  (memRead_answers _ s).bind (.ok _)

theorem readOperand_answers (o : Operand) (s : State) :
    Answers s.memSize (readOperand o s) (operandByte o s, s.afterRead o) := by
  cases o with
  | imm b => exact (Answers.ok _).congr (by
      simp [State.afterRead, State.elapse, readHistory, effAddr, carries, operandByte])
  | _ =>
    exact (resolve_answers .r _ s).bind ((readEA_answers _).congr (by
      simp [State.afterRead, State.elapse, readHistory, operandByte, Nat.add_assoc]))

theorem writeOperand_answers (o : Operand) (v : Byte) (s : State) :
    Answers s.memSize (writeOperand o v s) (s.afterWrite o v) :=
  (resolve_answers .w o s).bind ((memWrite_answers _ v _).congr (by
    simp [State.afterWrite, State.elapse, writeHistory, Nat.add_assoc]))

theorem modifyOperand_answers (o : Operand) (f : Byte → Flags → Byte × Flags) (s : State) :
    let r := f (s.mem.read (effAddr o s)) s.flags
    Answers s.memSize (modifyOperand o f s) { s.afterModify o r.1 with flags := r.2 } :=
  (resolve_answers .rmw o s).bind ((readEA_answers _).bind ((memWrite_answers _ _ _).bind ((Answers.ok _).congr (by
    simp [State.afterModify, State.elapse, modifyHistory, idle, tick, Nat.add_assoc]))))

theorem resolveJump_answers (o : JumpOperand) (s : State) :
    Answers s.memSize (resolveJump o s)
      (match o with
      | .abs w => { s with ea := w }
      | .ind p => { s.elapse [.read p (s.mem.read p),
          .read (join (hi p) (lo p + 1)) (s.mem.read (join (hi p) (lo p + 1)))] with
            ea := jumpPointerWord s.mem p }) := by
  cases o with
  | abs w => exact .ok _
  | ind p => exact (memRead_answers _ s).bind ((memRead_answers _ _).bind ((Answers.ok _).congr (by
      simp [State.elapse, jumpPointerWord])))

end Sys2Proof.Machine
end

