-- ==== Sys2Proof/Laws/Exec.lean ====
section
/-! SUPPORT. What every instruction can do, said once: `exec i s` answers the one state `effect i s`, or stops
with `BusRange` of an address the bus does not back. -/

namespace Sys2Proof.Machine

/-- A step on a bus of `n` bytes gives `t`, unless a transaction leaves the bus. -/
def Gives (n : Nat) (r : Result) (t : State) : Prop :=
  r = .next t ∨ ∃ (a : Word) (u : State), r = .fault (.busRange a u) ∧ n ≤ a.toNat

namespace Gives

variable {n : Nat} {r : Result} {t : State}

theorem finish {e : Except Fault State} (h : Answers n e t) : Gives n (finish e) t := by
  rcases h with rfl | ⟨a, u, rfl, ha⟩
  · exact .inl rfl
  · exact .inr ⟨a, u, rfl, ha⟩

theorem congr {t' : State} (h : Gives n r t) (ht : t = t') : Gives n r t' := ht ▸ h

/-- The only next state. -/
theorem eq_of_next {t' : State} (h : Gives n r t) (hr : r = .next t') : t' = t := by
  rcases h with rfl | ⟨a, u, rfl, -⟩
  · cases hr; rfl
  · cases hr

/-- The only fault. -/
theorem of_fault {f : Fault} (h : Gives n r t) (hr : r = .fault f) :
    ∃ (a : Word) (u : State), f = .busRange a u ∧ n ≤ a.toNat := by
  rcases h with rfl | ⟨a, u, rfl, ha⟩
  · cases hr
  · cases hr; exact ⟨a, u, rfl, ha⟩

theorem not_refused {f : Refusal} (h : Gives n r t) : r ≠ .refused f := by
  rcases h with rfl | ⟨a, u, rfl, -⟩ <;> simp

/-- On a bus of 65536 bytes the step goes on (R55). -/
theorem full (h : Gives n r t) (hn : n = 65536) : r = .next t := by
  rcases h with h | ⟨a, u, -, ha⟩
  · exact h
  · have := a.isLt
    omega

end Gives

/-- A branch in closed form (R214). -/
def branchEffect (taken : Bool) (off : Byte) (s : State) : State :=
  { s.elapse (List.replicate (branchExtra taken off s) .idle) with
    ea := s.pc + sext16 off, pc := if taken then s.pc + sext16 off else s.pc }

/-- A shift in closed form (R198). -/
def shiftEffect (f : Shift) (o : ShiftOperand) (s : State) : State :=
  match o with
  | .acc => { s.elapse [.idle] with a := (f s.a s.flags.c).1, flags := shiftFlags (f s.a s.flags.c) s.flags }
  | .mem o =>
    let r := f (s.mem.read (effAddr o s)) s.flags.c
    { s.afterModify o r.1 with flags := shiftFlags r s.flags }

/-- The next state of every instruction, when no transaction leaves the bus. -/
def effect (i : Instr) (s : State) : State :=
  let zn (v : Byte) : Flags := setZN v s.flags
  let slot (k : Byte) : Word := stackAddr (s.sp + k)
  let pulled (k : Byte) : Byte := s.mem.read (slot k)
  let s' := s.elapse [.idle]
  match i with
  | .lda o => { s.afterRead o with a := operandByte o s, flags := zn (operandByte o s) }
  | .ldx o => { s.afterRead o with x := operandByte o s, flags := zn (operandByte o s) }
  | .ldy o => { s.afterRead o with y := operandByte o s, flags := zn (operandByte o s) }
  | .sta o => s.afterWrite o s.a
  | .stx o => s.afterWrite o s.x
  | .sty o => s.afterWrite o s.y
  | .tax => { s' with x := s.a, flags := zn s.a }
  | .tay => { s' with y := s.a, flags := zn s.a }
  | .txa => { s' with a := s.x, flags := zn s.x }
  | .tya => { s' with a := s.y, flags := zn s.y }
  | .tsx => { s' with x := s.sp, flags := zn s.sp }
  | .txs => { s' with sp := s.x }
  | .pha => { s.elapse [.idle, .write (stackAddr s.sp) s.a] with
      mem := s.mem.write (stackAddr s.sp) s.a, sp := s.sp - 1 }
  | .php => { s.elapse [.idle, .write (stackAddr s.sp) (packP true s.flags)] with
      mem := s.mem.write (stackAddr s.sp) (packP true s.flags), sp := s.sp - 1 }
  | .pla => { s.elapse [.idle, .idle, .read (slot 1) (pulled 1)] with
      a := pulled 1, sp := s.sp + 1, flags := zn (pulled 1) }
  | .plp => { s.elapse [.idle, .idle, .read (slot 1) (pulled 1)] with sp := s.sp + 1, flags := unpackP (pulled 1) }
  | .and o => { s.afterRead o with a := s.a &&& operandByte o s, flags := zn (s.a &&& operandByte o s) }
  | .ora o => { s.afterRead o with a := s.a ||| operandByte o s, flags := zn (s.a ||| operandByte o s) }
  | .eor o => { s.afterRead o with a := s.a ^^^ operandByte o s, flags := zn (s.a ^^^ operandByte o s) }
  | .bit o => { s.afterRead o with
      flags := { s.flags with
        z := s.a &&& operandByte o s == 0, n := (operandByte o s).getLsbD 7, v := (operandByte o s).getLsbD 6 } }
  | .adc o => addWithCarry (operandByte o s) (s.afterRead o)
  | .sbc o => addWithCarry (operandByte o s ^^^ 0xFF) (s.afterRead o)
  | .cmp o => { s.afterRead o with flags := compareFlags s.a (operandByte o s) s.flags }
  | .cpx o => { s.afterRead o with flags := compareFlags s.x (operandByte o s) s.flags }
  | .cpy o => { s.afterRead o with flags := compareFlags s.y (operandByte o s) s.flags }
  | .inc o => { s.afterModify o (s.mem.read (effAddr o s) + 1) with flags := zn (s.mem.read (effAddr o s) + 1) }
  | .dec o => { s.afterModify o (s.mem.read (effAddr o s) - 1) with flags := zn (s.mem.read (effAddr o s) - 1) }
  | .inx => { s' with x := s.x + 1, flags := zn (s.x + 1) }
  | .iny => { s' with y := s.y + 1, flags := zn (s.y + 1) }
  | .dex => { s' with x := s.x - 1, flags := zn (s.x - 1) }
  | .dey => { s' with y := s.y - 1, flags := zn (s.y - 1) }
  | .asl o => shiftEffect shiftAsl o s
  | .lsr o => shiftEffect shiftLsr o s
  | .rol o => shiftEffect shiftRol o s
  | .ror o => shiftEffect shiftRor o s
  | .jmp (.abs w) => { s with ea := w, pc := w }
  | .jmp (.ind p) => { s.elapse [.read p (s.mem.read p),
      .read (join (hi p) (lo p + 1)) (s.mem.read (join (hi p) (lo p + 1)))] with
        ea := jumpPointerWord s.mem p, pc := jumpPointerWord s.mem p }
  | .jsr w =>
    { s.elapse [.idle, .write (stackAddr s.sp) (hi (s.pc - 1)), .write (stackAddr (s.sp - 1)) (lo (s.pc - 1))] with
      mem := (s.mem.write (stackAddr s.sp) (hi (s.pc - 1))).write (stackAddr (s.sp - 1)) (lo (s.pc - 1))
      sp := s.sp - 2, ea := w, pc := w }
  | .rts => { s.elapse [.idle, .idle, .read (slot 1) (pulled 1), .read (slot 2) (pulled 2), .idle] with
      sp := s.sp + 2, pc := join (pulled 2) (pulled 1) + 1 }
  | .bcc b => branchEffect (!s.flags.c) b s
  | .bcs b => branchEffect s.flags.c b s
  | .bne b => branchEffect (!s.flags.z) b s
  | .beq b => branchEffect s.flags.z b s
  | .bpl b => branchEffect (!s.flags.n) b s
  | .bmi b => branchEffect s.flags.n b s
  | .bvc b => branchEffect (!s.flags.v) b s
  | .bvs b => branchEffect s.flags.v b s
  | .clc => { s' with flags := { s.flags with c := false } }
  | .cld => { s' with flags := { s.flags with d := false } }
  | .cli => { s' with flags := { s.flags with i := false } }
  | .clv => { s' with flags := { s.flags with v := false } }
  | .sec => { s' with flags := { s.flags with c := true } }
  | .sed => { s' with flags := { s.flags with d := true } }
  | .sei => { s' with flags := { s.flags with i := true } }
  | .brk =>
    { s.elapse [.idle, .write (stackAddr s.sp) (hi (s.pc + 1)), .write (stackAddr (s.sp - 1)) (lo (s.pc + 1)),
        .write (stackAddr (s.sp - 2)) (packP true s.flags),
        .read 0xFFFE (s.mem.read 0xFFFE), .read 0xFFFF (s.mem.read 0xFFFF)] with
      mem := pushFrame true (s.pc + 1) s
      sp := s.sp - 3
      flags := { s.flags with i := true }
      pc := join (s.mem.read 0xFFFF) (s.mem.read 0xFFFE) }
  | .rti =>
    { s.elapse [.idle, .idle, .read (slot 1) (pulled 1), .read (slot 2) (pulled 2), .read (slot 3) (pulled 3)] with
      sp := s.sp + 3, flags := unpackP (pulled 1), pc := join (pulled 3) (pulled 2) }
  | .nop => s'
  | .ill op => s.elapse (List.replicate (Config.illegalExtraCycles op) .idle)

variable (s : State)

theorem branchIf_eq (taken : Bool) (off : Byte) : branchIf taken off s = branchEffect taken off s := by
  cases taken
  · simp [branchIf, branchEffect, branchExtra, State.elapse, resolveRelative]
  · by_cases h : hi (s.pc + sext16 off) = hi s.pc <;>
      simp [branchIf, branchEffect, branchExtra, State.elapse, resolveRelative, idle, tick, h, List.replicate]

theorem shiftOp_answers (f : Shift) (o : ShiftOperand) : Answers s.memSize (shiftOp f o s) (shiftEffect f o s) := by
  cases o with
  | acc => exact .ok _
  | mem o => exact modifyOperand_answers o (fun m fl => ((f m fl.c).1, shiftFlags (f m fl.c) fl)) s

/-- Every instruction gives its effect. -/
theorem exec_gives (i : Instr) (s : State) : Gives s.memSize (exec i s) (effect i s) := by
  cases i with
  | lda o => exact .finish ((readOperand_answers o s).bind (.ok _))
  | ldx o => exact .finish ((readOperand_answers o s).bind (.ok _))
  | ldy o => exact .finish ((readOperand_answers o s).bind (.ok _))
  | sta o => exact .finish (writeOperand_answers o _ s)
  | stx o => exact .finish (writeOperand_answers o _ s)
  | sty o => exact .finish (writeOperand_answers o _ s)
  | pha => exact .finish ((push_answers _ (idle s)).congr (by simp [effect, State.elapse, idle, tick]))
  | php => exact .finish ((push_answers _ (idle s)).congr (by simp [effect, State.elapse, idle, tick]))
  | pla =>
    exact .finish ((pull_answers (idle (idle s))).bind ((Answers.ok _).congr (by
      simp [effect, State.elapse, idle, tick])))
  | plp =>
    exact .finish ((pull_answers (idle (idle s))).bind ((Answers.ok _).congr (by
      simp [effect, State.elapse, idle, tick])))
  | and o => exact .finish ((readOperand_answers o s).bind (.ok _))
  | ora o => exact .finish ((readOperand_answers o s).bind (.ok _))
  | eor o => exact .finish ((readOperand_answers o s).bind (.ok _))
  | bit o => exact .finish ((readOperand_answers o s).bind (.ok _))
  | adc o => exact .finish ((readOperand_answers o s).bind (.ok _))
  | sbc o => exact .finish ((readOperand_answers o s).bind (.ok _))
  | cmp o => exact .finish ((readOperand_answers o s).bind (.ok _))
  | cpx o => exact .finish ((readOperand_answers o s).bind (.ok _))
  | cpy o => exact .finish ((readOperand_answers o s).bind (.ok _))
  | inc o => exact .finish (modifyOperand_answers o _ s)
  | dec o => exact .finish (modifyOperand_answers o _ s)
  | asl o => exact .finish (shiftOp_answers s _ o)
  | lsr o => exact .finish (shiftOp_answers s _ o)
  | rol o => exact .finish (shiftOp_answers s _ o)
  | ror o => exact .finish (shiftOp_answers s _ o)
  | jmp o =>
    cases o with
    | abs w => exact .inl rfl
    | ind p => exact .finish ((resolveJump_answers _ s).bind (.ok _))
  | jsr w =>
    exact .finish ((pushWord_answers _ _).bind ((Answers.ok _).congr (by
      simp [effect, State.elapse, idle, tick])))
  | rts =>
    exact .finish ((pullWord_answers _).bind ((Answers.ok _).congr (by
      simp [effect, State.elapse, idle, tick])))
  | bcc b => exact .inl (congrArg _ (branchIf_eq s _ b))
  | bcs b => exact .inl (congrArg _ (branchIf_eq s _ b))
  | bne b => exact .inl (congrArg _ (branchIf_eq s _ b))
  | beq b => exact .inl (congrArg _ (branchIf_eq s _ b))
  | bpl b => exact .inl (congrArg _ (branchIf_eq s _ b))
  | bmi b => exact .inl (congrArg _ (branchIf_eq s _ b))
  | bvc b => exact .inl (congrArg _ (branchIf_eq s _ b))
  | bvs b => exact .inl (congrArg _ (branchIf_eq s _ b))
  | brk =>
    exact .finish ((enterException_answers true _ (by decide) (by decide)).congr (by
      simp [effect, State.elapse, idle, tick, pushFrame, Config.vecIrq]))
  | rti =>
    exact .finish ((returnFromException_answers _).congr (by simp [effect, State.elapse, idle, tick]))
  | ill op => exact .inl (by simp [exec, execIll, effect, State.elapse])
  | _ => exact .inl rfl

end Sys2Proof.Machine
end

