-- ==== Sys2Proof/Laws/Invariant.lean ====
section
/-! SUPPORT. What every shared operation keeps, whether it answers or raises `BusRange`: the sub-cycles it has
completed extend the bus history, the counter has advanced once for each, and the memory is the old one with their
writes, all on the bus (20_memory.md R53, R55, R71). The invariant of the state as data follows. -/

namespace Sys2Proof.Machine

theorem replay_append (h h' : List BusEvent) (m : Memory) : replay (h ++ h') m = replay h' (replay h m) := by
  induction h generalizing m with
  | nil => rfl
  | cons e h ih => cases e <;> exact ih _

/-- `t` is reached from `s` by completed sub-cycles. -/
def Ran (s t : State) : Prop :=
  ∃ h, t.bus = s.bus ++ h ∧ t.cyc = s.cyc + h.length ∧ t.mem = replay h s.mem ∧ t.memSize = s.memSize ∧
    ∀ a v, .write a v ∈ h → a.toNat < s.memSize

namespace Ran

variable {s t u : State}

/-- No sub-cycle: an update of registers, flags or scratch alone. -/
theorem of_eq (hb : t.bus = s.bus) (hc : t.cyc = s.cyc) (hm : t.mem = s.mem) (hn : t.memSize = s.memSize) :
    Ran s t :=
  ⟨[], by simp [hb], hc, hm, hn, nofun⟩

theorem refl (s : State) : Ran s s := of_eq rfl rfl rfl rfl

theorem trans (h : Ran s t) (h' : Ran t u) : Ran s u := by
  obtain ⟨h, hb, hc, hm, hn, hw⟩ := h
  obtain ⟨h', hb', hc', hm', hn', hw'⟩ := h'
  refine ⟨h ++ h', by rw [hb', hb, List.append_assoc], by rw [hc', hc, List.length_append, Nat.add_assoc],
    by rw [hm', hm, replay_append], hn'.trans hn, fun a v hav => ?_⟩
  rcases List.mem_append.1 hav with hav | hav
  · exact hw a v hav
  · exact hn ▸ hw' a v hav

theorem idle (s : State) : Ran s (idle s) := ⟨[.idle], rfl, rfl, rfl, rfl, by simp⟩

theorem read (s : State) (a : Word) (v : Byte) : Ran s (tick (.read a v) s) := ⟨[.read a v], rfl, rfl, rfl, rfl, by simp⟩

theorem write {a : Word} (v : Byte) (ha : a.toNat < s.memSize) :
    Ran s (tick (.write a v) { s with mem := s.mem.write a v }) :=
  ⟨[.write a v], rfl, rfl, rfl, rfl, by rintro b w h; simp at h; exact h.1 ▸ ha⟩

/-- Completed sub-cycles keep the invariant of the state as data. -/
theorem inv (h : Ran s t) (hi : s.inv) : t.inv := by
  obtain ⟨h, -, -, hm, hn, hw⟩ := h
  obtain ⟨hwf, hcells, hsize⟩ := hi
  suffices ∀ m : Memory, m.wf → (∀ cell ∈ m, cell.1 < s.memSize) →
      (replay h m).wf ∧ ∀ cell ∈ replay h m, cell.1 < s.memSize by
    have := this s.mem hwf hcells
    exact ⟨hm ▸ this.1, fun cell hc => hn ▸ this.2 cell (hm ▸ hc), hn ▸ hsize⟩
  clear hm hwf hcells
  induction h with
  | nil => exact fun m hwf hcells => ⟨hwf, hcells⟩
  | cons e h ih =>
    have ih := ih fun a v hav => hw a v (List.mem_cons_of_mem e hav)
    intro m hwf hcells
    cases e with
    | read a v => exact ih m hwf hcells
    | idle => exact ih m hwf hcells
    | write a v =>
      refine ih _ (Memory.wf_write a v hwf) fun cell hc => ?_
      rcases Memory.mem_write hc with he | hc
      · exact he ▸ hw a v List.mem_cons_self
      · exact hcells cell hc

end Ran

/-- Whether it answers a result with state `st r` or raises `BusRange`, the operation has run completed sub-cycles
from `s`; a fault names an address the bus does not back. -/
def Runs {α : Type} (st : α → State) (s : State) (e : Except Fault α) : Prop :=
  (∀ r, e = .ok r → Ran s (st r)) ∧
  ∀ f, e = .error f → ∃ (a : Word) (t : State), f = .busRange a t ∧ s.memSize ≤ a.toNat ∧ Ran s t

namespace Runs

variable {α β : Type} {st : α → State} {st' : β → State} {s u : State}

theorem ok {r : α} (h : Ran s (st r)) : Runs st s (.ok r) := ⟨fun _ hr => by cases hr; exact h, nofun⟩

/-- The same from a state before. -/
theorem of {e : Except Fault α} (hu : Ran s u) (h : Runs st u e) : Runs st s e := by
  refine ⟨fun r hr => hu.trans (h.1 r hr), fun f hf => ?_⟩
  obtain ⟨a, t, rfl, ha, ht⟩ := h.2 f hf
  obtain ⟨_, -, -, -, hn, -⟩ := id hu
  exact ⟨a, t, rfl, hn ▸ ha, hu.trans ht⟩

/-- Two operations in a row. -/
theorem bind {e : Except Fault α} {f : α → Except Fault β} (h : Runs st s e) (hf : ∀ r, Runs st' (st r) (f r)) :
    Runs st' s (e >>= f) := by
  cases e with
  | ok r => exact (hf r).of (h.1 r rfl)
  | error x => exact ⟨nofun, fun f hf => by cases hf; exact h.2 x rfl⟩

/-- An operation and an update of registers, flags or scratch. -/
theorem update {e : Except Fault α} {f : α → β} (h : Runs st s e) (hf : ∀ r, Ran (st r) (st' (f r))) :
    Runs st' s (e >>= fun r => .ok (f r)) :=
  h.bind fun r => .ok (hf r)

end Runs

variable (s : State)

/-! ### Sub-cycles -/

theorem memRead_runs (a : Word) : Runs Prod.snd s (memRead a s) := by
  unfold memRead
  split
  · exact .ok (.read s a _)
  · exact ⟨nofun, fun f hf => by cases hf; exact ⟨a, s, rfl, by omega, .refl s⟩⟩

theorem memWrite_runs (a : Word) (v : Byte) : Runs id s (memWrite a v s) := by
  unfold memWrite
  split
  · exact .ok (.write v ‹_›)
  · exact ⟨nofun, fun f hf => by cases hf; exact ⟨a, s, rfl, by omega, .refl s⟩⟩

/-! ### The stack and exceptions -/

theorem push_runs (v : Byte) : Runs id s (push v s) := (memWrite_runs s _ v).update fun _ => .of_eq rfl rfl rfl rfl

theorem pull_runs : Runs Prod.snd s (pull s) := (memRead_runs _ _).of (.of_eq rfl rfl rfl rfl)

theorem pushWord_runs (w : Word) : Runs id s (pushWord w s) := (push_runs s _).bind fun u => push_runs u _

theorem pullWord_runs : Runs Prod.snd s (pullWord s) :=
  (pull_runs s).bind fun r => (pull_runs r.2).update fun _ => .refl _

theorem readVector_runs (a : Word) : Runs Prod.snd s (readVector a s) :=
  (memRead_runs s a).bind fun r => (memRead_runs r.2 _).update fun _ => .refl _

theorem enterException_runs (brk : Bool) (vec : Word) : Runs id s (enterException brk vec s) :=
  (pushWord_runs s _).bind fun u => (push_runs u _).bind fun w =>
    .of (.of_eq (s := w) (t := { w with flags := { w.flags with i := true } }) rfl rfl rfl rfl)
      ((readVector_runs _ vec).update fun _ => .of_eq rfl rfl rfl rfl)

theorem returnFromException_runs : Runs id s (returnFromException s) :=
  (pull_runs s).bind fun r =>
    .of (.of_eq (s := r.2) (t := { r.2 with flags := unpackP r.1 }) rfl rfl rfl rfl)
      ((pullWord_runs _).update fun _ => .of_eq rfl rfl rfl rfl)

/-! ### Operands -/

theorem readPointer_runs (z : Byte) : Runs Prod.snd s (readPointer z s) :=
  (memRead_runs s _).bind fun r => (memRead_runs r.2 _).update fun _ => .refl _

theorem indexBase_ran (cls : Access) (base : Word) (r : Byte) : Ran s (indexBase cls base r s) := by
  have h : Ran s { s with pageCross := 256 ≤ (lo base).toNat + r.toNat, ea := base + zext16 r } :=
    .of_eq rfl rfl rfl rfl
  refine h.trans ?_
  unfold indexBase pageCrossCycle
  split
  · exact .idle _
  · exact .idle _
  · split
    · exact .idle _
    · exact .refl _
  · exact .refl _

theorem resolve_runs (cls : Access) (o : Operand) : Runs id s (resolve cls o s) := by
  cases o with
  | imm b => exact .ok (.of_eq rfl rfl rfl rfl)
  | zp b => exact .ok (.of_eq rfl rfl rfl rfl)
  | zpx b => exact .ok ((Ran.idle s).trans (.of_eq rfl rfl rfl rfl))
  | zpy b => exact .ok ((Ran.idle s).trans (.of_eq rfl rfl rfl rfl))
  | abs w => exact .ok (.of_eq rfl rfl rfl rfl)
  | abx w => exact .ok (indexBase_ran s cls w s.x)
  | aby w => exact .ok (indexBase_ran s cls w s.y)
  | izx b => exact .of (.idle s) ((readPointer_runs _ _).update fun _ => .of_eq rfl rfl rfl rfl)
  | izy b => exact (readPointer_runs s b).update fun r => indexBase_ran r.2 cls r.1 r.2.y

theorem readEA_runs : Runs Prod.snd s (readEA s) := (memRead_runs s _).update fun _ => .of_eq rfl rfl rfl rfl

theorem readOperand_runs (o : Operand) : Runs Prod.snd s (readOperand o s) := by
  cases o with
  | imm b => exact .ok (.of_eq rfl rfl rfl rfl)
  | _ => exact (resolve_runs s .r _).bind fun u => readEA_runs u

theorem writeOperand_runs (o : Operand) (v : Byte) : Runs id s (writeOperand o v s) :=
  (resolve_runs s .w o).bind fun u => memWrite_runs u _ v

theorem modifyOperand_runs (o : Operand) (f : Byte → Flags → Byte × Flags) : Runs id s (modifyOperand o f s) :=
  (resolve_runs s .rmw o).bind fun u => (readEA_runs u).bind fun r =>
    .of (.idle r.2) ((memWrite_runs _ _ _).update fun _ => .of_eq rfl rfl rfl rfl)

theorem resolveJump_runs (o : JumpOperand) : Runs id s (resolveJump o s) := by
  cases o with
  | abs w => exact .ok (.of_eq rfl rfl rfl rfl)
  | ind p => exact (memRead_runs s p).bind fun r => (memRead_runs r.2 _).update fun _ => .of_eq rfl rfl rfl rfl

end Sys2Proof.Machine
end

