-- ==== Sys2Proof/Laws/PerInstr.lean ====
section
/-! SUPPORT. Statements made for every instruction as syntax, one lemma per constructor (LAWS.json). -/

namespace Sys2Proof.Laws.EncodesToItsLength

/-- A well-formed instruction has an encoding, of as many bytes as its mode says (30_encoding.md R82, R89). -/
def Statement (i : Instr) : Prop :=
  i.wellFormed = true → ∃ bytes, encode i = some bytes ∧ bytes.length = i.length

/-- An operand's bytes are as many as its mode has after the opcode (R81, R82). -/
theorem operand_bytes_length (o : Operand) : o.bytes.length + 1 = o.mode.length := by
  cases o <;> rfl

/-- From an opcode byte and the number of operand bytes to the statement. -/
theorem of_opcode {i : Instr} (ho : i.wellFormed = true → ∃ op, i.opcode = some op)
    (hl : i.operandBytes.length + 1 = i.length) : Statement i := fun h => by
  obtain ⟨op, hop⟩ := ho h
  exact ⟨op :: i.operandBytes, by simp [encode, hop], by simpa using hl⟩

theorem lda (o : Operand) : Statement (.lda o) :=
  of_opcode (fun h => by cases o <;> first | exact ⟨_, rfl⟩ | exact nomatch h)
    (operand_bytes_length o)

theorem ldx (o : Operand) : Statement (.ldx o) :=
  of_opcode (fun h => by cases o <;> first | exact ⟨_, rfl⟩ | exact nomatch h)
    (operand_bytes_length o)

theorem ldy (o : Operand) : Statement (.ldy o) :=
  of_opcode (fun h => by cases o <;> first | exact ⟨_, rfl⟩ | exact nomatch h)
    (operand_bytes_length o)

theorem sta (o : Operand) : Statement (.sta o) :=
  of_opcode (fun h => by cases o <;> first | exact ⟨_, rfl⟩ | exact nomatch h)
    (operand_bytes_length o)

theorem stx (o : Operand) : Statement (.stx o) :=
  of_opcode (fun h => by cases o <;> first | exact ⟨_, rfl⟩ | exact nomatch h)
    (operand_bytes_length o)

theorem sty (o : Operand) : Statement (.sty o) :=
  of_opcode (fun h => by cases o <;> first | exact ⟨_, rfl⟩ | exact nomatch h)
    (operand_bytes_length o)

theorem tax : Statement .tax := fun _ => ⟨_, rfl, rfl⟩

theorem tay : Statement .tay := fun _ => ⟨_, rfl, rfl⟩

theorem txa : Statement .txa := fun _ => ⟨_, rfl, rfl⟩

theorem tya : Statement .tya := fun _ => ⟨_, rfl, rfl⟩

theorem tsx : Statement .tsx := fun _ => ⟨_, rfl, rfl⟩

theorem txs : Statement .txs := fun _ => ⟨_, rfl, rfl⟩

theorem pha : Statement .pha := fun _ => ⟨_, rfl, rfl⟩

theorem php : Statement .php := fun _ => ⟨_, rfl, rfl⟩

theorem pla : Statement .pla := fun _ => ⟨_, rfl, rfl⟩

theorem plp : Statement .plp := fun _ => ⟨_, rfl, rfl⟩

theorem and (o : Operand) : Statement (.and o) :=
  of_opcode (fun h => by cases o <;> first | exact ⟨_, rfl⟩ | exact nomatch h)
    (operand_bytes_length o)

theorem ora (o : Operand) : Statement (.ora o) :=
  of_opcode (fun h => by cases o <;> first | exact ⟨_, rfl⟩ | exact nomatch h)
    (operand_bytes_length o)

theorem eor (o : Operand) : Statement (.eor o) :=
  of_opcode (fun h => by cases o <;> first | exact ⟨_, rfl⟩ | exact nomatch h)
    (operand_bytes_length o)

theorem bit (o : Operand) : Statement (.bit o) :=
  of_opcode (fun h => by cases o <;> first | exact ⟨_, rfl⟩ | exact nomatch h)
    (operand_bytes_length o)

theorem adc (o : Operand) : Statement (.adc o) :=
  of_opcode (fun h => by cases o <;> first | exact ⟨_, rfl⟩ | exact nomatch h)
    (operand_bytes_length o)

theorem sbc (o : Operand) : Statement (.sbc o) :=
  of_opcode (fun h => by cases o <;> first | exact ⟨_, rfl⟩ | exact nomatch h)
    (operand_bytes_length o)

theorem cmp (o : Operand) : Statement (.cmp o) :=
  of_opcode (fun h => by cases o <;> first | exact ⟨_, rfl⟩ | exact nomatch h)
    (operand_bytes_length o)

theorem cpx (o : Operand) : Statement (.cpx o) :=
  of_opcode (fun h => by cases o <;> first | exact ⟨_, rfl⟩ | exact nomatch h)
    (operand_bytes_length o)

theorem cpy (o : Operand) : Statement (.cpy o) :=
  of_opcode (fun h => by cases o <;> first | exact ⟨_, rfl⟩ | exact nomatch h)
    (operand_bytes_length o)

theorem inc (o : Operand) : Statement (.inc o) :=
  of_opcode (fun h => by cases o <;> first | exact ⟨_, rfl⟩ | exact nomatch h)
    (operand_bytes_length o)

theorem dec (o : Operand) : Statement (.dec o) :=
  of_opcode (fun h => by cases o <;> first | exact ⟨_, rfl⟩ | exact nomatch h)
    (operand_bytes_length o)

theorem inx : Statement .inx := fun _ => ⟨_, rfl, rfl⟩

theorem iny : Statement .iny := fun _ => ⟨_, rfl, rfl⟩

theorem dex : Statement .dex := fun _ => ⟨_, rfl, rfl⟩

theorem dey : Statement .dey := fun _ => ⟨_, rfl, rfl⟩

theorem asl (o : ShiftOperand) : Statement (.asl o) :=
  of_opcode (fun h => by rcases o with _ | o; exact ⟨_, rfl⟩; cases o <;> first | exact ⟨_, rfl⟩ | exact nomatch h)
    (by cases o with | acc => rfl | mem o => exact operand_bytes_length o)

theorem lsr (o : ShiftOperand) : Statement (.lsr o) :=
  of_opcode (fun h => by rcases o with _ | o; exact ⟨_, rfl⟩; cases o <;> first | exact ⟨_, rfl⟩ | exact nomatch h)
    (by cases o with | acc => rfl | mem o => exact operand_bytes_length o)

theorem rol (o : ShiftOperand) : Statement (.rol o) :=
  of_opcode (fun h => by rcases o with _ | o; exact ⟨_, rfl⟩; cases o <;> first | exact ⟨_, rfl⟩ | exact nomatch h)
    (by cases o with | acc => rfl | mem o => exact operand_bytes_length o)

theorem ror (o : ShiftOperand) : Statement (.ror o) :=
  of_opcode (fun h => by rcases o with _ | o; exact ⟨_, rfl⟩; cases o <;> first | exact ⟨_, rfl⟩ | exact nomatch h)
    (by cases o with | acc => rfl | mem o => exact operand_bytes_length o)

theorem jmp (o : JumpOperand) : Statement (.jmp o) := fun _ => by
  cases o <;> exact ⟨_, rfl, rfl⟩

theorem jsr (w : Word) : Statement (.jsr w) := fun _ => ⟨_, rfl, rfl⟩

theorem rts : Statement .rts := fun _ => ⟨_, rfl, rfl⟩

theorem bcc (off : Byte) : Statement (.bcc off) := fun _ => ⟨_, rfl, rfl⟩

theorem bcs (off : Byte) : Statement (.bcs off) := fun _ => ⟨_, rfl, rfl⟩

theorem bne (off : Byte) : Statement (.bne off) := fun _ => ⟨_, rfl, rfl⟩

theorem beq (off : Byte) : Statement (.beq off) := fun _ => ⟨_, rfl, rfl⟩

theorem bpl (off : Byte) : Statement (.bpl off) := fun _ => ⟨_, rfl, rfl⟩

theorem bmi (off : Byte) : Statement (.bmi off) := fun _ => ⟨_, rfl, rfl⟩

theorem bvc (off : Byte) : Statement (.bvc off) := fun _ => ⟨_, rfl, rfl⟩

theorem bvs (off : Byte) : Statement (.bvs off) := fun _ => ⟨_, rfl, rfl⟩

theorem clc : Statement .clc := fun _ => ⟨_, rfl, rfl⟩

theorem cld : Statement .cld := fun _ => ⟨_, rfl, rfl⟩

theorem cli : Statement .cli := fun _ => ⟨_, rfl, rfl⟩

theorem clv : Statement .clv := fun _ => ⟨_, rfl, rfl⟩

theorem sec : Statement .sec := fun _ => ⟨_, rfl, rfl⟩

theorem sed : Statement .sed := fun _ => ⟨_, rfl, rfl⟩

theorem sei : Statement .sei := fun _ => ⟨_, rfl, rfl⟩

theorem brk : Statement .brk := fun _ => ⟨_, rfl, rfl⟩

theorem rti : Statement .rti := fun _ => ⟨_, rfl, rfl⟩

theorem nop : Statement .nop := fun _ => ⟨_, rfl, rfl⟩

theorem ill (op : Byte) : Statement (.ill op) := fun h =>
  ⟨[op], by rw [Instr.wellFormed] at h; simp only [encode, Instr.opcode, h, if_true]; rfl, rfl⟩

end Sys2Proof.Laws.EncodesToItsLength
end

