-- ==== Sys2Proof/Laws/Step.lean ====
section
/-! SUPPORT. What a step does at each kind of boundary: the instruction decoded from the bytes at `PC`, an
interrupt entry, a reset, the clock's reset. -/

namespace Sys2Proof.Machine

theorem fetchByte_answers (s : State) :
    Answers s.memSize (fetchByte s) (s.mem.read s.pc,
      { s.elapse [.read s.pc (s.mem.read s.pc)] with pc := s.pc + 1 }) :=
  (memRead_answers _ s).bind (.ok _)

/-- The fetch reads as many bytes as the decoded instruction is long, and gives that instruction (R100). -/
theorem fetchInstr_answers (s : State) {i : Instr} {rest : List Byte} (h : decode s.bytesAtPc = .ok (i, rest)) :
    Answers s.memSize (fetchInstr s)
      (i, { s.elapse (fetchHistory i.length s) with pc := s.pc + BitVec.ofNat 16 i.length }) := by
  have hlen := entry_has_format_length (s.mem.read s.pc)
  unfold State.bytesAtPc decode at h
  refine (fetchByte_answers s).bind ?_
  simp only
  cases he : entry (s.mem.read s.pc) with
  | f1 j =>
    simp only [he, HasFormatLength, Except.ok.injEq, Prod.mk.injEq] at h hlen
    obtain ⟨rfl, -⟩ := h
    exact (Answers.ok _).congr (by simp [hlen, fetchHistory, State.elapse])
  | illegal =>
    simp only [he, Except.ok.injEq, Prod.mk.injEq] at h
    obtain ⟨rfl, -⟩ := h
    exact (Answers.ok _).congr (by simp [Instr.length, Instr.mode, fetchHistory, State.elapse])
  | f2 make =>
    simp only [he, HasFormatLength, Except.ok.injEq, Prod.mk.injEq] at h hlen
    obtain ⟨rfl, -⟩ := h
    exact (fetchByte_answers _).bind ((Answers.ok _).congr (by
      simp [hlen, fetchHistory, State.elapse, List.range_succ, BitVec.add_assoc]))
  | f3 make =>
    simp only [he, HasFormatLength, Except.ok.injEq, Prod.mk.injEq] at h hlen
    obtain ⟨rfl, -⟩ := h
    exact (fetchByte_answers _).bind ((fetchByte_answers _).bind ((Answers.ok _).congr (by
      simp [hlen, fetchHistory, State.elapse, List.range_succ, BitVec.add_assoc])))

/-- The fetch runs completed sub-cycles, also when it leaves the bus. -/
theorem fetchByte_runs (s : State) : Runs Prod.snd s (fetchByte s) :=
  (memRead_runs s _).update fun _ => .of_eq rfl rfl rfl rfl

theorem fetchInstr_runs (s : State) : Runs Prod.snd s (fetchInstr s) := by
  refine (fetchByte_runs s).bind fun r => ?_
  obtain ⟨op, u⟩ := r
  simp only
  cases entry op with
  | f1 i => exact .ok (.refl u)
  | f2 make => exact (fetchByte_runs u).update fun _ => .refl _
  | f3 make => exact (fetchByte_runs u).bind fun r => (fetchByte_runs r.2).update fun _ => .refl _
  | illegal => exact .ok (.refl u)

/-- Three bytes always decode (R84). -/
theorem bytesAtPc_decode (s : State) : ∃ i rest, decode s.bytesAtPc = .ok (i, rest) := by
  unfold State.bytesAtPc decode
  cases he : entry (s.mem.read s.pc) <;> simp [he]

/-- An instruction boundary: the decoded instruction's effect on the fetched state. -/
theorem instructionStep_gives (s : State) {i : Instr} {rest : List Byte} (h : decode s.bytesAtPc = .ok (i, rest)) :
    Gives s.memSize (instructionStep { s with env := s.env.tail }) (effect i (s.fetched i.length)) := by
  have hf := fetchInstr_answers { beginStep { s with env := s.env.tail } with pageCross := false } (i := i) h
  unfold instructionStep
  rcases hf with hf | ⟨a, u, hf, ha⟩
  · rw [hf]
    have hs : State.fetched i.length s = { State.elapse
        (fetchHistory i.length { beginStep { s with env := s.env.tail } with pageCross := false })
        { beginStep { s with env := s.env.tail } with pageCross := false } with
        pc := s.pc + BitVec.ofNat 16 i.length } := by
      simp [State.fetched, State.elapse, fetchHistory, beginStep]
    exact hs ▸ exec_gives i _
  · rw [hf]
    exact .inr ⟨a, u, rfl, ha⟩

theorem step_gives_instruction {s : State} (hs : s.runsInstruction) {i : Instr} {rest : List Byte}
    (h : decode s.bytesAtPc = .ok (i, rest)) :
    Gives s.memSize (step s) (effect i (s.fetched i.length)) := by
  have hg := instructionStep_gives s h
  rcases hs with he | ⟨irq, rest', he, hirq⟩
  · have : { s with env := s.env.tail } = s := by cases s; simp_all
    rw [this] at hg
    simpa [step, boundaryMove, he, boundary] using hg
  · have hi : (irq && !s.flags.i) = false := by cases irq <;> simp_all
    rw [he] at hg
    simpa [step, boundaryMove, he, boundary, hi] using hg

/-- An interrupt boundary: the entry's effect (60_exceptions.md R260). -/
theorem step_gives_interrupt {s : State} {nmi irq : Bool} {rest : List EnvMove} (he : s.env = .lines nmi irq :: rest)
    {vec : Word} (hv : nmi = true ∧ vec = 0xFFFA ∨ nmi = false ∧ irq = true ∧ s.flags.i = false ∧ vec = 0xFFFE) :
    Gives s.memSize (step s) { s with
      env := rest
      mem := pushFrame false s.pc s
      sp := s.sp - 3
      flags := { s.flags with i := true }
      pc := join (s.mem.read (vec + 1)) (s.mem.read vec)
      cyc := s.cyc + 7
      bus := [.idle, .idle, .write (stackAddr s.sp) (hi s.pc), .write (stackAddr (s.sp - 1)) (lo s.pc),
        .write (stackAddr (s.sp - 2)) (packP false s.flags), .read vec (s.mem.read vec),
        .read (vec + 1) (s.mem.read (vec + 1))]
      ea := Config.freeWord s.draws, dl := Config.freeByte s.draws, draws := s.draws + 1 } := by
  have hstep : step s = finish (interruptEntry vec { s with env := rest }) := by
    rcases hv with ⟨rfl, rfl⟩ | ⟨rfl, rfl, hi, rfl⟩
    · simp [step, boundaryMove, he, boundary, Config.vecNmi]
    · simp [step, boundaryMove, he, boundary, hi, Config.vecIrq]
  have hvec : 512 ≤ vec.toNat ∧ 512 ≤ (vec + 1).toNat := by
    rcases hv with ⟨-, rfl⟩ | ⟨-, -, -, rfl⟩ <;> decide
  rw [hstep]
  exact .finish ((enterException_answers false _ hvec.1 hvec.2).congr (by
    simp [State.elapse, idle, tick, beginStep, pushFrame]))

/-- The step at a boundary where the host resets the core. -/
theorem step_reset {s : State} {rest : List EnvMove} (he : s.env = .reset :: rest) :
    step s = finish (resetStep { s with env := rest }) := by
  simp [step, boundaryMove, he]

/-- The step at a boundary where the host zeroes the clock. -/
theorem step_zeroClock {s : State} {rest : List EnvMove} (he : s.env = .zeroClock :: rest) :
    step s = .next { s with env := rest, cyc := 0 } := by
  simp [step, boundaryMove, he]

/-- The four kinds of boundary. -/
theorem boundary_cases (s : State) :
    s.runsInstruction ∨
    (∃ nmi irq rest vec, s.env = .lines nmi irq :: rest ∧
      (nmi = true ∧ vec = (0xFFFA : Word) ∨ nmi = false ∧ irq = true ∧ s.flags.i = false ∧ vec = 0xFFFE)) ∨
    (∃ rest, s.env = .reset :: rest) ∨ ∃ rest, s.env = .zeroClock :: rest := by
  unfold State.runsInstruction
  rcases he : s.env with _ | ⟨⟨nmi, irq⟩ | - | -, rest⟩
  · simp
  · cases nmi <;> cases irq <;> cases hi : s.flags.i <;> simp
  · simp
  · simp

end Sys2Proof.Machine
end

