-- ==== Sys2Proof/Tests/Slice0.lean ====
section
/-! SUPPORT. Tests of the model against the spec's own numbers (95_test_vectors.md, 30_encoding.md R88 to R90),
and, for every statement of Certificates/Slice0/Obligations.lean with hypotheses, concrete data that meet them
(`witness_<statement>`). -/

open Sys2Proof
open Sys2Proof.Machine

namespace Sys2Proof.Tests

/-! ### Well-formedness: one ill-formed term for each check (30_encoding.md R89, R90) -/

theorem test_wf_accumulator_modes :
    [Instr.lda (.zpy 0), .and (.zpy 0), .ora (.zpy 0), .eor (.zpy 0), .adc (.zpy 0), .sbc (.zpy 0), .cmp (.zpy 0)].all
      (fun i => !i.wellFormed) = true := by decide

theorem test_wf_ldx_ldy : Instr.wellFormed (.ldx (.zpx 0)) = false ∧ Instr.wellFormed (.ldy (.zpy 0)) = false := by
  decide

theorem test_wf_stores : Instr.wellFormed (.sta (.imm 0)) = false ∧ Instr.wellFormed (.stx (.zpx 0)) = false ∧
    Instr.wellFormed (.sty (.abx 0)) = false := by decide

theorem test_wf_bit : Instr.wellFormed (.bit (.imm 0)) = false := by decide

theorem test_wf_cpx_cpy : Instr.wellFormed (.cpx (.zpx 0)) = false ∧ Instr.wellFormed (.cpy (.abx 0)) = false := by
  decide

theorem test_wf_inc_dec : Instr.wellFormed (.inc (.aby 0)) = false ∧ Instr.wellFormed (.dec (.izx 0)) = false := by
  decide

theorem test_wf_shifts :
    [Instr.asl (.mem (.imm 0)), .lsr (.mem (.aby 0)), .rol (.mem (.zpy 0)), .ror (.mem (.izy 0))].all
      (fun i => !i.wellFormed) = true := by decide

theorem test_wf_ill : Instr.wellFormed (.ill 0xEA) = false := by decide

/-! ### Decoding: every encoding of the table, its opcode byte written out in bits -/

/-- The bytes decode to the instruction with nothing left, and it encodes to them. -/
def reads (bytes : List Byte) (i : Instr) : Bool :=
  (match decode bytes with
    | .ok (j, []) => i == j
    | _ => false) && encode i == some bytes

/-- Every pair of every list. -/
def allRead (table : List (List (List Byte × Instr))) : Bool := table.all fun l => l.all fun p => reads p.1 p.2

theorem test_decode_loads : allRead [
    [([0b10100001, 0x9C], .lda (.izx 0x9C)), ([0b10100101, 0x9C], .lda (.zp 0x9C)),
     ([0b10101001, 0x9C], .lda (.imm 0x9C)), ([0b10101101, 0x34, 0xA2], .lda (.abs 0xA234)),
     ([0b10110001, 0x9C], .lda (.izy 0x9C)), ([0b10110101, 0x9C], .lda (.zpx 0x9C)),
     ([0b10111001, 0x34, 0xA2], .lda (.aby 0xA234)), ([0b10111101, 0x34, 0xA2], .lda (.abx 0xA234)),
     ([0b10100010, 0x9C], .ldx (.imm 0x9C)), ([0b10100110, 0x9C], .ldx (.zp 0x9C)),
     ([0b10101110, 0x34, 0xA2], .ldx (.abs 0xA234)), ([0b10110110, 0x9C], .ldx (.zpy 0x9C)),
     ([0b10111110, 0x34, 0xA2], .ldx (.aby 0xA234)), ([0b10100000, 0x9C], .ldy (.imm 0x9C)),
     ([0b10100100, 0x9C], .ldy (.zp 0x9C)), ([0b10101100, 0x34, 0xA2], .ldy (.abs 0xA234))],
    [([0b10110100, 0x9C], .ldy (.zpx 0x9C)), ([0b10111100, 0x34, 0xA2], .ldy (.abx 0xA234))]] = true := by decide +kernel

theorem test_decode_stores : allRead [
    [([0b10000001, 0x9C], .sta (.izx 0x9C)), ([0b10000101, 0x9C], .sta (.zp 0x9C)),
     ([0b10001101, 0x34, 0xA2], .sta (.abs 0xA234)), ([0b10010001, 0x9C], .sta (.izy 0x9C)),
     ([0b10010101, 0x9C], .sta (.zpx 0x9C)), ([0b10011001, 0x34, 0xA2], .sta (.aby 0xA234)),
     ([0b10011101, 0x34, 0xA2], .sta (.abx 0xA234)), ([0b10000110, 0x9C], .stx (.zp 0x9C)),
     ([0b10001110, 0x34, 0xA2], .stx (.abs 0xA234)), ([0b10010110, 0x9C], .stx (.zpy 0x9C)),
     ([0b10000100, 0x9C], .sty (.zp 0x9C)), ([0b10001100, 0x34, 0xA2], .sty (.abs 0xA234)),
     ([0b10010100, 0x9C], .sty (.zpx 0x9C))]] = true := by decide +kernel

theorem test_decode_transfers : allRead [
    [([0b10101010], .tax), ([0b10101000], .tay), ([0b10001010], .txa), ([0b10011000], .tya),
     ([0b10111010], .tsx), ([0b10011010], .txs)]] = true := by decide +kernel

theorem test_decode_stack : allRead [
    [([0b01001000], .pha), ([0b00001000], .php), ([0b01101000], .pla), ([0b00101000], .plp)]] = true := by decide +kernel

theorem test_decode_logic : allRead [
    [([0b00100001, 0x9C], .and (.izx 0x9C)), ([0b00100101, 0x9C], .and (.zp 0x9C)),
     ([0b00101001, 0x9C], .and (.imm 0x9C)), ([0b00101101, 0x34, 0xA2], .and (.abs 0xA234)),
     ([0b00110001, 0x9C], .and (.izy 0x9C)), ([0b00110101, 0x9C], .and (.zpx 0x9C)),
     ([0b00111001, 0x34, 0xA2], .and (.aby 0xA234)), ([0b00111101, 0x34, 0xA2], .and (.abx 0xA234)),
     ([0b00000001, 0x9C], .ora (.izx 0x9C)), ([0b00000101, 0x9C], .ora (.zp 0x9C)),
     ([0b00001001, 0x9C], .ora (.imm 0x9C)), ([0b00001101, 0x34, 0xA2], .ora (.abs 0xA234)),
     ([0b00010001, 0x9C], .ora (.izy 0x9C)), ([0b00010101, 0x9C], .ora (.zpx 0x9C)),
     ([0b00011001, 0x34, 0xA2], .ora (.aby 0xA234)), ([0b00011101, 0x34, 0xA2], .ora (.abx 0xA234))],
    [([0b01000001, 0x9C], .eor (.izx 0x9C)), ([0b01000101, 0x9C], .eor (.zp 0x9C)),
     ([0b01001001, 0x9C], .eor (.imm 0x9C)), ([0b01001101, 0x34, 0xA2], .eor (.abs 0xA234)),
     ([0b01010001, 0x9C], .eor (.izy 0x9C)), ([0b01010101, 0x9C], .eor (.zpx 0x9C)),
     ([0b01011001, 0x34, 0xA2], .eor (.aby 0xA234)), ([0b01011101, 0x34, 0xA2], .eor (.abx 0xA234)),
     ([0b00100100, 0x9C], .bit (.zp 0x9C)), ([0b00101100, 0x34, 0xA2], .bit (.abs 0xA234))]] = true := by decide +kernel

theorem test_decode_arithmetic : allRead [
    [([0b01100001, 0x9C], .adc (.izx 0x9C)), ([0b01100101, 0x9C], .adc (.zp 0x9C)),
     ([0b01101001, 0x9C], .adc (.imm 0x9C)), ([0b01101101, 0x34, 0xA2], .adc (.abs 0xA234)),
     ([0b01110001, 0x9C], .adc (.izy 0x9C)), ([0b01110101, 0x9C], .adc (.zpx 0x9C)),
     ([0b01111001, 0x34, 0xA2], .adc (.aby 0xA234)), ([0b01111101, 0x34, 0xA2], .adc (.abx 0xA234)),
     ([0b11100001, 0x9C], .sbc (.izx 0x9C)), ([0b11100101, 0x9C], .sbc (.zp 0x9C)),
     ([0b11101001, 0x9C], .sbc (.imm 0x9C)), ([0b11101101, 0x34, 0xA2], .sbc (.abs 0xA234)),
     ([0b11110001, 0x9C], .sbc (.izy 0x9C)), ([0b11110101, 0x9C], .sbc (.zpx 0x9C)),
     ([0b11111001, 0x34, 0xA2], .sbc (.aby 0xA234)), ([0b11111101, 0x34, 0xA2], .sbc (.abx 0xA234))]] = true := by decide +kernel

theorem test_decode_compares : allRead [
    [([0b11000001, 0x9C], .cmp (.izx 0x9C)), ([0b11000101, 0x9C], .cmp (.zp 0x9C)),
     ([0b11001001, 0x9C], .cmp (.imm 0x9C)), ([0b11001101, 0x34, 0xA2], .cmp (.abs 0xA234)),
     ([0b11010001, 0x9C], .cmp (.izy 0x9C)), ([0b11010101, 0x9C], .cmp (.zpx 0x9C)),
     ([0b11011001, 0x34, 0xA2], .cmp (.aby 0xA234)), ([0b11011101, 0x34, 0xA2], .cmp (.abx 0xA234)),
     ([0b11100000, 0x9C], .cpx (.imm 0x9C)), ([0b11100100, 0x9C], .cpx (.zp 0x9C)),
     ([0b11101100, 0x34, 0xA2], .cpx (.abs 0xA234)), ([0b11000000, 0x9C], .cpy (.imm 0x9C)),
     ([0b11000100, 0x9C], .cpy (.zp 0x9C)), ([0b11001100, 0x34, 0xA2], .cpy (.abs 0xA234))]] = true := by decide +kernel

theorem test_decode_increments : allRead [
    [([0b11100110, 0x9C], .inc (.zp 0x9C)), ([0b11101110, 0x34, 0xA2], .inc (.abs 0xA234)),
     ([0b11110110, 0x9C], .inc (.zpx 0x9C)), ([0b11111110, 0x34, 0xA2], .inc (.abx 0xA234)),
     ([0b11000110, 0x9C], .dec (.zp 0x9C)), ([0b11001110, 0x34, 0xA2], .dec (.abs 0xA234)),
     ([0b11010110, 0x9C], .dec (.zpx 0x9C)), ([0b11011110, 0x34, 0xA2], .dec (.abx 0xA234)),
     ([0b11101000], .inx), ([0b11001000], .iny), ([0b11001010], .dex), ([0b10001000], .dey)]] = true := by decide +kernel

theorem test_decode_shifts : allRead [
    [([0b00000110, 0x9C], .asl (.mem (.zp 0x9C))), ([0b00001010], .asl .acc),
     ([0b00001110, 0x34, 0xA2], .asl (.mem (.abs 0xA234))), ([0b00010110, 0x9C], .asl (.mem (.zpx 0x9C))),
     ([0b00011110, 0x34, 0xA2], .asl (.mem (.abx 0xA234))), ([0b01000110, 0x9C], .lsr (.mem (.zp 0x9C))),
     ([0b01001010], .lsr .acc), ([0b01001110, 0x34, 0xA2], .lsr (.mem (.abs 0xA234))),
     ([0b01010110, 0x9C], .lsr (.mem (.zpx 0x9C))), ([0b01011110, 0x34, 0xA2], .lsr (.mem (.abx 0xA234))),
     ([0b00100110, 0x9C], .rol (.mem (.zp 0x9C))), ([0b00101010], .rol .acc),
     ([0b00101110, 0x34, 0xA2], .rol (.mem (.abs 0xA234))), ([0b00110110, 0x9C], .rol (.mem (.zpx 0x9C))),
     ([0b00111110, 0x34, 0xA2], .rol (.mem (.abx 0xA234))), ([0b01100110, 0x9C], .ror (.mem (.zp 0x9C)))],
    [([0b01101010], .ror .acc), ([0b01101110, 0x34, 0xA2], .ror (.mem (.abs 0xA234))),
     ([0b01110110, 0x9C], .ror (.mem (.zpx 0x9C))), ([0b01111110, 0x34, 0xA2], .ror (.mem (.abx 0xA234)))]] = true := by decide +kernel

theorem test_decode_jumps : allRead [
    [([0b01001100, 0x34, 0xA2], .jmp (.abs 0xA234)), ([0b01101100, 0x34, 0xA2], .jmp (.ind 0xA234)),
     ([0b00100000, 0x34, 0xA2], .jsr 0xA234), ([0b01100000], .rts)]] = true := by decide +kernel

theorem test_decode_branches : allRead [
    [([0b10010000, 0x9C], .bcc 0x9C), ([0b10110000, 0x9C], .bcs 0x9C), ([0b11010000, 0x9C], .bne 0x9C),
     ([0b11110000, 0x9C], .beq 0x9C), ([0b00010000, 0x9C], .bpl 0x9C), ([0b00110000, 0x9C], .bmi 0x9C),
     ([0b01010000, 0x9C], .bvc 0x9C), ([0b01110000, 0x9C], .bvs 0x9C)]] = true := by decide +kernel

theorem test_decode_flags_and_system : allRead [
    [([0b00011000], .clc), ([0b11011000], .cld), ([0b01011000], .cli), ([0b10111000], .clv),
     ([0b00111000], .sec), ([0b11111000], .sed), ([0b01111000], .sei), ([0b00000000], .brk),
     ([0b01000000], .rti), ([0b11101010], .nop)]] = true := by decide +kernel

theorem test_decode_illegal : ∀ op ∈ illegalOpcodes, reads [op] (.ill op) = true := by decide +kernel

theorem test_decode_short : decode [0xAD, 0x34] = .error (.operandMissing 0xAD) ∧ decode [] = .error .noOpcode :=
  ⟨rfl, rfl⟩

/-- The table's words: BRK has no operand; LDA absolute with its operand in the second and third byte. -/
theorem test_table_words : decodeTableWord 8 0x00 = some .brk ∧
    decodeTableWord 24 0xA234AD = some (.lda (.abs 0xA234)) ∧ decodeTableWord 8 0xAD = some (.lda (.abs 0)) := by
  decide +kernel

/-! ### One step, against the vectors of 95_test_vectors.md -/

/-- A state with these registers, flags (as a packed byte), `PC` and memory cells, and nothing requested. -/
def start (a x y sp p : Byte) (pc : Word) (cells : List (Word × Byte)) : State :=
  { State.reset with
    a := a, x := x, y := y, sp := sp, flags := unpackP p, pc := pc
    mem := cells.foldl (fun m c => m.write c.1 c.2) [] }

/-- The same with the environment's coming moves. -/
def withMoves (moves : List EnvMove) (s : State) : State := { s with env := moves }

/-- One step ends with these registers, flags, `PC`, counter and bytes in memory. -/
def ends (s : State) (a x y sp p : Byte) (pc : Word) (cyc : Nat) (cells : List (Word × Byte)) : Bool :=
  match step s with
  | .next t => t.a == a && t.x == x && t.y == y && t.sp == sp && packP false t.flags == p && t.pc == pc &&
      t.cyc == cyc && cells.all fun c => t.mem.read c.1 == c.2
  | _ => false

/-- The bus history of one step. -/
def busOf (s : State) : List BusEvent :=
  match step s with
  | .next t => t.bus
  | _ => []

/-- E5a: `LDA $12FF,X`. -/
theorem test_lda_carry : ends (start 0x00 0x01 0x00 0xFD 0x20 0x0200
      [(0x0200, 0xBD), (0x0201, 0xFF), (0x0202, 0x12), (0x1300, 0x42)])
    0x42 0x01 0x00 0xFD 0x20 0x0203 5 [] = true := rfl

/-- V4: `LDA ($FF),Y`. -/
theorem test_lda_izy_wraps : ends (start 0x00 0x00 0x10 0xFD 0x20 0x0200
      [(0x0200, 0xB1), (0x0201, 0xFF), (0x00FF, 0xF8), (0x0000, 0x12), (0x0100, 0x77), (0x1308, 0x5A)])
    0x5A 0x00 0x10 0xFD 0x20 0x0202 6 [] = true := rfl

/-- V8: `LDX $12FF,Y`. -/
theorem test_ldx_aby : ends (start 0x00 0x00 0x01 0xFD 0x20 0x0200
      [(0x0200, 0xBE), (0x0201, 0xFF), (0x0202, 0x12), (0x1300, 0x01)])
    0x00 0x01 0x01 0xFD 0x20 0x0203 5 [] = true := rfl

/-- V10: `LDY $10,X`. -/
theorem test_ldy_zpx_wraps : ends (start 0x00 0xFF 0x00 0xFD 0x20 0x0200
      [(0x0200, 0xB4), (0x0201, 0x10), (0x000F, 0xFF)])
    0x00 0xFF 0xFF 0xFD 0xA0 0x0202 4 [] = true := rfl

/-- V14: `STA ($F0,X)`. -/
theorem test_sta_izx : ends (start 0x99 0x10 0x00 0xFD 0x20 0x0200
      [(0x0200, 0x81), (0x0201, 0xF0), (0x0000, 0x00), (0x0001, 0x05)])
    0x99 0x10 0x00 0xFD 0x20 0x0202 6 [(0x0500, 0x99)] = true := rfl

/-- V15: `STX $FF,Y`. -/
theorem test_stx_zpy_wraps : ends (start 0x00 0x11 0x01 0xFD 0xA2 0x0200
      [(0x0200, 0x96), (0x0201, 0xFF)])
    0x00 0x11 0x01 0xFD 0xA2 0x0202 4 [(0x0000, 0x11)] = true := rfl

/-- V16: `STY $10`. -/
theorem test_sty_zp : ends (start 0x00 0x00 0x00 0xFD 0x20 0x0200
      [(0x0200, 0x84), (0x0201, 0x10)])
    0x00 0x00 0x00 0xFD 0x20 0x0202 3 [] = true := rfl

/-- V18: `TAX`. -/
theorem test_tax : ends (start 0x00 0x05 0x00 0xFD 0x20 0x0200
      [(0x0200, 0xAA)])
    0x00 0x00 0x00 0xFD 0x22 0x0201 2 [] = true := rfl

/-- V19: `TAY`. -/
theorem test_tay : ends (start 0x80 0x00 0x00 0xFD 0x20 0x0200
      [(0x0200, 0xA8)])
    0x80 0x00 0x80 0xFD 0xA0 0x0201 2 [] = true := rfl

/-- V20: `TXA`. -/
theorem test_txa : ends (start 0x00 0x7F 0x00 0xFD 0xA0 0x0200
      [(0x0200, 0x8A)])
    0x7F 0x7F 0x00 0xFD 0x20 0x0201 2 [] = true := rfl

/-- V21: `TYA`. -/
theorem test_tya : ends (start 0x00 0x00 0xFF 0xFD 0x20 0x0200
      [(0x0200, 0x98)])
    0xFF 0x00 0xFF 0xFD 0xA0 0x0201 2 [] = true := rfl

/-- V22: `TSX`. -/
theorem test_tsx : ends (start 0x00 0x00 0x00 0x80 0x20 0x0200
      [(0x0200, 0xBA)])
    0x00 0x80 0x00 0x80 0xA0 0x0201 2 [] = true := rfl

/-- V23: `TXS`. -/
theorem test_txs : ends (start 0x00 0x00 0x00 0xFD 0xA0 0x0200
      [(0x0200, 0x9A)])
    0x00 0x00 0x00 0x00 0xA0 0x0201 2 [] = true := rfl

/-- V24: `PHA`. -/
theorem test_pha_wraps : ends (start 0xAB 0x00 0x00 0x00 0x20 0x0200
      [(0x0200, 0x48)])
    0xAB 0x00 0x00 0xFF 0x20 0x0201 3 [(0x0100, 0xAB)] = true := rfl

/-- V26: `PHP`. -/
theorem test_php : ends (start 0x00 0x00 0x00 0xFD 0xEF 0x0200
      [(0x0200, 0x08)])
    0x00 0x00 0x00 0xFC 0xEF 0x0201 3 [(0x01FD, 0xFF)] = true := rfl

/-- V25: `PLA`. -/
theorem test_pla_wraps : ends (start 0x00 0x00 0x00 0xFF 0x20 0x0200
      [(0x0200, 0x68), (0x0100, 0x00)])
    0x00 0x00 0x00 0x00 0x22 0x0201 4 [] = true := rfl

/-- V29: `PLP`. -/
theorem test_plp : ends (start 0x00 0x00 0x00 0xFC 0xEF 0x0200
      [(0x0200, 0x28), (0x01FD, 0x00)])
    0x00 0x00 0x00 0xFD 0x20 0x0201 4 [] = true := rfl

/-- V32: `AND $1234,X`. -/
theorem test_and_abx : ends (start 0xFF 0x01 0x00 0xFD 0x20 0x0200
      [(0x0200, 0x3D), (0x0201, 0x34), (0x0202, 0x12), (0x1235, 0x80)])
    0x80 0x01 0x00 0xFD 0xA0 0x0203 4 [] = true := rfl

/-- V33: `ORA $10`. -/
theorem test_ora_zp : ends (start 0x01 0x00 0x00 0xFD 0x20 0x0200
      [(0x0200, 0x05), (0x0201, 0x10), (0x0010, 0x80)])
    0x81 0x00 0x00 0xFD 0xA0 0x0202 3 [] = true := rfl

/-- V36: `EOR ($10,X)`. -/
theorem test_eor_izx : ends (start 0x0F 0x04 0x00 0xFD 0x20 0x0200
      [(0x0200, 0x41), (0x0201, 0x10), (0x0014, 0x00), (0x0015, 0x03), (0x0300, 0xF0)])
    0xFF 0x04 0x00 0xFD 0xA0 0x0202 6 [] = true := rfl

/-- V37: `BIT $10`. -/
theorem test_bit_zp : ends (start 0x3F 0x00 0x00 0xFD 0x20 0x0200
      [(0x0200, 0x24), (0x0201, 0x10), (0x0010, 0xC0)])
    0x3F 0x00 0x00 0xFD 0xE2 0x0202 3 [] = true := rfl

/-- V40: `ADC #$80`. -/
theorem test_adc_carry_and_overflow : ends (start 0x80 0x00 0x00 0xFD 0x20 0x0200
      [(0x0200, 0x69), (0x0201, 0x80)])
    0x00 0x00 0x00 0xFD 0x63 0x0202 2 [] = true := rfl

/-- V42: `ADC #$01`. -/
theorem test_adc_decimal : ends (start 0x09 0x00 0x00 0xFD 0x28 0x0200
      [(0x0200, 0x69), (0x0201, 0x01)])
    0x0A 0x00 0x00 0xFD 0x28 0x0202 2 [] = true := rfl

/-- V46: `SBC #$03`. -/
theorem test_sbc_borrow_in : ends (start 0x05 0x00 0x00 0xFD 0x20 0x0200
      [(0x0200, 0xE9), (0x0201, 0x03)])
    0x01 0x00 0x00 0xFD 0x21 0x0202 2 [] = true := rfl

/-- V48: `SBC #$80`. -/
theorem test_sbc_overflow : ends (start 0x7F 0x00 0x00 0xFD 0x21 0x0200
      [(0x0200, 0xE9), (0x0201, 0x80)])
    0xFF 0x00 0x00 0xFD 0xE0 0x0202 2 [] = true := rfl

/-- V53: `CMP #$01`. -/
theorem test_cmp : ends (start 0x80 0x00 0x00 0xFD 0x20 0x0200
      [(0x0200, 0xC9), (0x0201, 0x01)])
    0x80 0x00 0x00 0xFD 0x21 0x0202 2 [] = true := rfl

/-- V54: `CPX $10`. -/
theorem test_cpx : ends (start 0x00 0x10 0x00 0xFD 0x20 0x0200
      [(0x0200, 0xE4), (0x0201, 0x10), (0x0010, 0x90)])
    0x00 0x10 0x00 0xFD 0xA0 0x0202 3 [] = true := rfl

/-- V55: `CPY #$FF`. -/
theorem test_cpy : ends (start 0x00 0x00 0xFF 0xFD 0x20 0x0200
      [(0x0200, 0xC0), (0x0201, 0xFF)])
    0x00 0x00 0xFF 0xFD 0x23 0x0202 2 [] = true := rfl

/-- V57: `INC $1200,X`. -/
theorem test_inc_abx : ends (start 0x00 0x01 0x00 0xFD 0x20 0x0200
      [(0x0200, 0xFE), (0x0201, 0x00), (0x0202, 0x12), (0x1201, 0x7F)])
    0x00 0x01 0x00 0xFD 0xA0 0x0203 7 [(0x1201, 0x80)] = true := rfl

/-- V58: `DEC $12FF,X`. -/
theorem test_dec_abx : ends (start 0x00 0x01 0x00 0xFD 0x20 0x0200
      [(0x0200, 0xDE), (0x0201, 0xFF), (0x0202, 0x12), (0x1300, 0x00)])
    0x00 0x01 0x00 0xFD 0xA0 0x0203 7 [(0x1300, 0xFF)] = true := rfl

/-- V60: `INX`. -/
theorem test_inx : ends (start 0x00 0xFF 0x00 0xFD 0x20 0x0200
      [(0x0200, 0xE8)])
    0x00 0x00 0x00 0xFD 0x22 0x0201 2 [] = true := rfl

/-- V61: `INY`. -/
theorem test_iny : ends (start 0x00 0x00 0x7F 0xFD 0x20 0x0200
      [(0x0200, 0xC8)])
    0x00 0x00 0x80 0xFD 0xA0 0x0201 2 [] = true := rfl

/-- V62: `DEX`. -/
theorem test_dex : ends (start 0x00 0x00 0x00 0xFD 0x20 0x0200
      [(0x0200, 0xCA)])
    0x00 0xFF 0x00 0xFD 0xA0 0x0201 2 [] = true := rfl

/-- V63: `DEY`. -/
theorem test_dey : ends (start 0x00 0x00 0x01 0xFD 0x20 0x0200
      [(0x0200, 0x88)])
    0x00 0x00 0x00 0xFD 0x22 0x0201 2 [] = true := rfl

/-- V64: `ASL A`. -/
theorem test_asl_acc : ends (start 0x80 0x00 0x00 0xFD 0x20 0x0200
      [(0x0200, 0x0A)])
    0x00 0x00 0x00 0xFD 0x23 0x0201 2 [] = true := rfl

/-- V65: `ASL $10`. -/
theorem test_asl_zp : ends (start 0x00 0x00 0x00 0xFD 0x21 0x0200
      [(0x0200, 0x06), (0x0201, 0x10), (0x0010, 0x40)])
    0x00 0x00 0x00 0xFD 0xA0 0x0202 5 [(0x0010, 0x80)] = true := rfl

/-- V66: `LSR $10`. -/
theorem test_lsr_zp : ends (start 0x00 0x00 0x00 0xFD 0xA0 0x0200
      [(0x0200, 0x46), (0x0201, 0x10), (0x0010, 0x01)])
    0x00 0x00 0x00 0xFD 0x23 0x0202 5 [(0x0010, 0x00)] = true := rfl

/-- V68: `ROL $10,X`. -/
theorem test_rol_zpx : ends (start 0x00 0xF8 0x00 0xFD 0x21 0x0200
      [(0x0200, 0x36), (0x0201, 0x10), (0x0008, 0x80)])
    0x00 0xF8 0x00 0xFD 0x21 0x0202 6 [(0x0008, 0x01)] = true := rfl

/-- V70: `ROR $1234`. -/
theorem test_ror_abs : ends (start 0x00 0x00 0x00 0xFD 0x21 0x0200
      [(0x0200, 0x6E), (0x0201, 0x34), (0x0202, 0x12), (0x1234, 0x00)])
    0x00 0x00 0x00 0xFD 0xA0 0x0203 6 [(0x1234, 0x80)] = true := rfl

/-- V72: `JMP $1234`. -/
theorem test_jmp_abs : ends (start 0x00 0x00 0x00 0xFD 0x20 0x0200
      [(0x0200, 0x4C), (0x0201, 0x34), (0x0202, 0x12)])
    0x00 0x00 0x00 0xFD 0x20 0x1234 3 [] = true := rfl

/-- E6: `JMP ($12FF)`. -/
theorem test_jmp_ind_page_wrap : ends (start 0x00 0x00 0x00 0xFD 0x20 0x0200
      [(0x0200, 0x6C), (0x0201, 0xFF), (0x0202, 0x12), (0x12FF, 0x34), (0x1200, 0x56), (0x1300, 0x78)])
    0x00 0x00 0x00 0xFD 0x20 0x5634 5 [] = true := rfl

/-- V74: `JSR $4000`. -/
theorem test_jsr_stack_wraps : ends (start 0x00 0x00 0x00 0x00 0x20 0x0200
      [(0x0200, 0x20), (0x0201, 0x00), (0x0202, 0x40)])
    0x00 0x00 0x00 0xFE 0x20 0x4000 6 [(0x0100, 0x02), (0x01FF, 0x02)] = true := rfl

/-- V75: `RTS`. -/
theorem test_rts_wraps : ends (start 0x00 0x00 0x00 0xFB 0x20 0x0200
      [(0x0200, 0x60), (0x01FC, 0xFF), (0x01FD, 0xFF)])
    0x00 0x00 0x00 0xFD 0x20 0x0000 6 [] = true := rfl

/-- V80: `BCC +2`. -/
theorem test_bcc_not_taken : ends (start 0x00 0x00 0x00 0xFD 0x21 0x0200
      [(0x0200, 0x90), (0x0201, 0x02)])
    0x00 0x00 0x00 0xFD 0x21 0x0202 2 [] = true := rfl

/-- V82: `BCS +0`. -/
theorem test_bcs_offset_zero : ends (start 0x00 0x00 0x00 0xFD 0x21 0x02FD
      [(0x02FD, 0xB0), (0x02FE, 0x00)])
    0x00 0x00 0x00 0xFD 0x21 0x02FF 3 [] = true := rfl

/-- V77: `BNE -5`. -/
theorem test_bne_back : ends (start 0x00 0x00 0x00 0xFD 0x20 0x0208
      [(0x0208, 0xD0), (0x0209, 0xFB)])
    0x00 0x00 0x00 0xFD 0x20 0x0205 3 [] = true := rfl

/-- V76: `BEQ +$10`. -/
theorem test_beq_cross : ends (start 0x00 0x00 0x00 0xFD 0x22 0x02F0
      [(0x02F0, 0xF0), (0x02F1, 0x10)])
    0x00 0x00 0x00 0xFD 0x22 0x0302 4 [] = true := rfl

/-- V81: `BPL -2`. -/
theorem test_bpl_cross_to_self_page : ends (start 0x00 0x00 0x00 0xFD 0x20 0x02FE
      [(0x02FE, 0x10), (0x02FF, 0xFE)])
    0x00 0x00 0x00 0xFD 0x20 0x02FE 4 [] = true := rfl

/-- V78: `BMI -128`. -/
theorem test_bmi : ends (start 0x00 0x00 0x00 0xFD 0xA0 0x0200
      [(0x0200, 0x30), (0x0201, 0x80)])
    0x00 0x00 0x00 0xFD 0xA0 0x0182 4 [] = true := rfl

/-- V83: `BVC +$7F`. -/
theorem test_bvc : ends (start 0x00 0x00 0x00 0xFD 0x20 0x0200
      [(0x0200, 0x50), (0x0201, 0x7F)])
    0x00 0x00 0x00 0xFD 0x20 0x0281 3 [] = true := rfl

/-- V79: `BVS +4`. -/
theorem test_bvs_wraps : ends (start 0x00 0x00 0x00 0xFD 0x60 0xFFFC
      [(0xFFFC, 0x70), (0xFFFD, 0x04)])
    0x00 0x00 0x00 0xFD 0x60 0x0002 4 [] = true := rfl

/-- V84: `SEC`. -/
theorem test_sec : ends (start 0x00 0x00 0x00 0xFD 0x20 0x0200
      [(0x0200, 0x38)])
    0x00 0x00 0x00 0xFD 0x21 0x0201 2 [] = true := rfl

/-- V86: `SEI`. -/
theorem test_sei : ends (start 0x00 0x00 0x00 0xFD 0x20 0x0200
      [(0x0200, 0x78)])
    0x00 0x00 0x00 0xFD 0x24 0x0201 2 [] = true := rfl

/-- V87: `CLI`. -/
theorem test_cli : ends (start 0x00 0x00 0x00 0xFD 0x24 0x0200
      [(0x0200, 0x58)])
    0x00 0x00 0x00 0xFD 0x20 0x0201 2 [] = true := rfl

/-- V88: `CLV`. -/
theorem test_clv : ends (start 0x00 0x00 0x00 0xFD 0x60 0x0200
      [(0x0200, 0xB8)])
    0x00 0x00 0x00 0xFD 0x20 0x0201 2 [] = true := rfl

/-- V89: `BRK`. -/
theorem test_brk : ends (start 0x00 0x00 0x00 0xFD 0x23 0x0200
      [(0x0200, 0x00), (0xFFFE, 0x00), (0xFFFF, 0x80)])
    0x00 0x00 0x00 0xFA 0x27 0x8000 7 [(0x01FB, 0x33), (0x01FC, 0x02), (0x01FD, 0x02)] = true := rfl

/-- V90: `BRK`. -/
theorem test_brk_masked : ends (start 0x00 0x00 0x00 0xFD 0xA4 0x02FF
      [(0x02FF, 0x00), (0xFFFE, 0x00), (0xFFFF, 0x80)])
    0x00 0x00 0x00 0xFA 0xA4 0x8000 7 [(0x01FB, 0xB4), (0x01FC, 0x01), (0x01FD, 0x03)] = true := rfl

/-- V91: `RTI`. -/
theorem test_rti : ends (start 0x00 0x00 0x00 0xFA 0x20 0x0200
      [(0x0200, 0x40), (0x01FB, 0xCF), (0x01FC, 0x02), (0x01FD, 0x03)])
    0x00 0x00 0x00 0xFD 0xEF 0x0302 6 [] = true := rfl

/-- V93: `NOP`. -/
theorem test_nop : ends (start 0x00 0x00 0x00 0xFD 0x20 0x0200
      [(0x0200, 0xEA)])
    0x00 0x00 0x00 0xFD 0x20 0x0201 2 [] = true := rfl

/-- V94: `NMI entry (NOP not fetched)`. -/
theorem test_nmi_entry : ends (withMoves [.lines true false] (start 0x00 0x00 0x00 0xFD 0x25 0x0200
      [(0x0200, 0xEA), (0xFFFA, 0x00), (0xFFFB, 0x90)]))
    0x00 0x00 0x00 0xFA 0x25 0x9000 7 [(0x01FB, 0x25), (0x01FD, 0x02)] = true := rfl

/-- V95: `IRQ masked, NOP runs`. -/
theorem test_irq_masked : ends (withMoves [.lines false true] (start 0x00 0x00 0x00 0xFD 0x24 0x0200
      [(0x0200, 0xEA), (0xFFFE, 0x00), (0xFFFF, 0x80)]))
    0x00 0x00 0x00 0xFD 0x24 0x0201 2 [] = true := rfl

/-- V96: `IRQ entry (NOP not fetched)`. -/
theorem test_irq_entry : ends (withMoves [.lines false true] (start 0x00 0x00 0x00 0xFD 0xA0 0x0200
      [(0x0200, 0xEA), (0xFFFE, 0x00), (0xFFFF, 0x80)]))
    0x00 0x00 0x00 0xFA 0xA4 0x8000 7 [(0x01FB, 0xA0), (0x01FD, 0x02)] = true := rfl

/-- V97: `NMI and IRQ together`. -/
theorem test_nmi_over_irq : ends (withMoves [.lines true true] (start 0x00 0x00 0x00 0xFD 0x20 0x0200
      [(0x0200, 0xEA), (0xFFFE, 0x00), (0xFFFF, 0x80), (0xFFFA, 0x00), (0xFFFB, 0x90)]))
    0x00 0x00 0x00 0xFA 0x24 0x9000 7 [(0x01FB, 0x20), (0x01FD, 0x02)] = true := rfl

/-- P1, step 11: CLC with C set. -/
theorem test_clc : ends (start 0x20 0x02 0x77 0xFD 0x21 0x0204 [(0x0204, 0x18)])
    0x20 0x02 0x77 0xFD 0x20 0x0205 2 [] = true := rfl

/-- E8b, fourth step: CLD. -/
theorem test_cld : ends (start 0x00 0x00 0x00 0xFC 0xAA 0x0203 [(0x0203, 0xD8)])
    0x00 0x00 0x00 0xFC 0xA2 0x0204 2 [] = true := rfl

/-- V85, first step: SED. -/
theorem test_sed : ends (start 0x00 0x00 0x00 0xFD 0x20 0x0200 [(0x0200, 0xF8)])
    0x00 0x00 0x00 0xFD 0x28 0x0201 2 [] = true := rfl

/-- The vector of R244: nothing but `PC` and an open number of cycles. -/
theorem test_ill : (match step (start 0x01 0 0 0xFD 0x20 0x0200 [(0x0200, 0x02)]) with
    | .next t => t.a == 0x01 && t.pc == 0x0201 && t.sp == 0xFD && packP false t.flags == 0x20
    | _ => false) = true := rfl

/-- E5d: the bus sequence of a store whose index does not carry. -/
theorem test_bus_sta_abx : busOf (start 0x42 0 0 0xFD 0x20 0x0200 [(0x0200, 0x9D), (0x0201, 0xFF), (0x0202, 0x12)]) =
    [.read 0x0200 0x9D, .read 0x0201 0xFF, .read 0x0202 0x12, .idle, .write 0x12FF 0x42] := by decide +kernel

/-- V58: the bus sequence of a read-modify-write. -/
theorem test_bus_dec_abx : busOf (start 0 1 0 0xFD 0x20 0x0200 [(0x0200, 0xDE), (0x0201, 0xFF), (0x0202, 0x12)]) =
    [.read 0x0200 0xDE, .read 0x0201 0xFF, .read 0x0202 0x12, .idle, .read 0x1300 0, .idle, .write 0x1300 0xFF] := by
  decide +kernel

/-- The reset vector of 95_test_vectors.md 2.10: `A`, `X`, `Y` are not asked. -/
theorem test_reset : (match step (withMoves [.reset] { start 0x05 0 0 0x12 0xA1 0x1234 [(0xFFFD, 0x02)] with cyc := 99 }) with
    | .next t => t.pc == 0x0200 && t.sp == 0xFD && packP false t.flags == 0x24 && t.cyc == 0
    | _ => false) = true := rfl

/-- The clock's reset alone: `CYC` and nothing else (60_exceptions.md R272). -/
theorem test_zero_clock : (match step (withMoves [.zeroClock] { start 0x05 0 0 0x12 0xA1 0x1234 [] with cyc := 99 }) with
    | .next t => t.cyc == 0 && t.a == 0x05 && t.pc == 0x1234
    | _ => false) = true := rfl

/-- The `BusRange` vector: LDA $8000 with `MEM_SIZE = 0x8000`; three reads were done and `A` is not written. -/
theorem test_bus_range :
    (match step { start 0 0 0 0xFD 0x20 0x0200 [(0x0200, 0xAD), (0x0202, 0x80)] with memSize := 0x8000 } with
    | .fault (.busRange a t) => a == 0x8000 && t.a == 0x00 &&
        t.bus == [.read 0x0200 0xAD, .read 0x0201 0x00, .read 0x0202 0x80]
    | _ => false) = true := rfl

/-- R55: JSR with `S = 0x00` on a bus of 0x01FF bytes. The first push, to 0x0100, stays written; the second, to
0x01FF, raises `BusRange`; `PC` is not the target. -/
theorem test_bus_range_partial :
    (match step { start 0 0 0 0x00 0x20 0x0110 [(0x0110, 0x20), (0x0112, 0x40)] with memSize := 0x01FF } with
    | .fault (.busRange a t) => a == 0x01FF && t.mem.read 0x0100 == 0x01 && t.sp == 0xFF && t.pc == 0x0113 &&
        t.cyc == 5
    | _ => false) = true := rfl

/-- Memory keeps one form: writing the byte an unlisted address reads as removes the entry. -/
theorem test_memory_canonical :
    Memory.write (Memory.write (Memory.write [] 0x20 0x01) 0x10 0x02) 0x20 0x00 = [(0x10, 0x02)] := by decide

/-- The host's question: a table word placed after reset runs as the first instruction (LDA #$80, E2). -/
theorem test_with_fetch_word : (match step (State.reset.withFetchWord 16 0x80A9) with
    | .next t => t.a == 0x80 && t.flags.n && t.pc == 0x0002
    | _ => false) = true := rfl

/-! ### Witnesses: concrete data that meet the hypotheses of each statement -/

/-- A state with no field at zero, on a bus of 65536 bytes, with `bytes` at `PC = 0x02FE`. -/
def busy (bytes : List Byte) : State :=
  { start 0x80 0x7F 0x01 0xFD 0x63 0x02FE [(0x0010, 0xFE), (0x0011, 0x12), (0x01FE, 0xB4), (0x01FF, 0x03), (0xFFFB, 0x90)] with
    mem := (Memory.write [] 0x01FE 0xB4).load 0x02FE bytes, ea := 0x1234, dl := 0x56, draws := 7, cyc := 11 }

theorem busy_full (bytes : List Byte) : (busy bytes).fullMemory := rfl

/-- On a full bus every instruction goes on (used to name the next states below). -/
theorem exec_next (i : Instr) (s : State) (h : s.fullMemory) : ∃ t, exec i s = .next t :=
  ⟨_, (exec_gives i s).full h⟩

/-- The hypotheses the statements about a decoded step share. -/
def Meets (s : State) (i : Instr) : Prop :=
  s.fullMemory ∧ s.runsInstruction ∧ i.wellFormed = true ∧ ∃ rest, decode s.bytesAtPc = .ok (i, rest)

theorem witness_DecodeOfEncodeGivesTheInstruction :
    (Instr.lda (.abx 0xFFFF)).wellFormed = true ∧ (Instr.asl .acc).wellFormed = true ∧
    (Instr.ill 0x02).wellFormed = true ∧ (Instr.ill 0xFF).wellFormed = true := by decide

theorem witness_DecodedBytesAreTheEncoding :
    decode [0xBD, 0xFF, 0xFF, 0x00] = .ok (.lda (.abx 0xFFFF), [0x00]) ∧ decode [0xFF] = .ok (.ill 0xFF, []) :=
  ⟨rfl, rfl⟩

/-- A listed byte, first and last, and a legal one that is not listed. -/
theorem witness_IllegalBytesDecodeToTheFallback :
    (0x02 : Byte) ∈ illegalOpcodes ∧ (0xFF : Byte) ∈ illegalOpcodes ∧ (0x00 : Byte) ∉ illegalOpcodes ∧
    decode [0x02] = .ok (.ill 0x02, []) ∧ decode [0xFF] = .ok (.ill 0xFF, []) :=
  ⟨by decide, by decide, by decide, rfl, rfl⟩

/-- No move, lines down, and an IRQ that `I` masks. -/
theorem witness_StepRunsTheDecodedInstruction :
    Meets (busy [0xBD, 0xFF, 0x12]) (.lda (.abx 0x12FF)) ∧
    Meets (withMoves [.lines false false] (busy [0xEA])) .nop ∧
    Meets (withMoves [.lines false true] { busy [0xEA] with flags := unpackP 0x24 }) .nop :=
  ⟨⟨rfl, .inl rfl, rfl, _, rfl⟩, ⟨rfl, .inr ⟨_, _, rfl, nofun⟩, rfl, _, rfl⟩,
    ⟨rfl, .inr ⟨_, _, rfl, fun _ => rfl⟩, rfl, _, rfl⟩⟩

/-- One instruction for each line of the table; `busy` has `C` and `Z` set and `N` and `V` clear or set. -/
theorem witness_StepLeavesPcByTheTable :
    Meets (busy [0x4C, 0xFF, 0xFF]) (.jmp (.abs 0xFFFF)) ∧ Meets (busy [0x6C, 0xFF, 0x12]) (.jmp (.ind 0x12FF)) ∧
    Meets (busy [0x20, 0x00, 0x40]) (.jsr 0x4000) ∧ Meets (busy [0x60]) .rts ∧ Meets (busy [0x40]) .rti ∧
    Meets (busy [0x00]) .brk ∧ Meets (busy [0x90, 0x80]) (.bcc 0x80) ∧ Meets (busy [0xB0, 0x7F]) (.bcs 0x7F) ∧
    Meets (busy [0xD0, 0x80]) (.bne 0x80) ∧ Meets (busy [0xF0, 0xFE]) (.beq 0xFE) ∧
    Meets (busy [0x10, 0x00]) (.bpl 0x00) ∧ Meets (busy [0x30, 0xFF]) (.bmi 0xFF) ∧
    Meets (busy [0x50, 0x01]) (.bvc 0x01) ∧ Meets (busy [0x70, 0x80]) (.bvs 0x80) ∧
    Meets (busy [0xAA]) .tax ∧ Meets (busy [0x02]) (.ill 0x02) := by
  refine ⟨?_, ?_, ?_, ?_, ?_, ?_, ?_, ?_, ?_, ?_, ?_, ?_, ?_, ?_, ?_, ?_⟩ <;> exact ⟨rfl, .inl rfl, rfl, _, rfl⟩

/-- A read-modify-write, an NMI and an IRQ. -/
theorem witness_StepHasTheBusHistoryOfItsShape :
    Meets (busy [0xDE, 0xFF, 0x12]) (.dec (.abx 0x12FF)) ∧
    (withMoves [.lines true true] (busy [])).env = [.lines true true] ∧
    (withMoves [.lines false true] (busy [])).flags.i = false :=
  ⟨⟨rfl, .inl rfl, rfl, _, rfl⟩, rfl, rfl⟩

/-- A taken branch to another page, and reading instructions with and without a carry. -/
theorem witness_StepTakesBaseCyclesPlusExtra :
    Meets (busy [0xB0, 0x80]) (.bcs 0x80) ∧ Meets (busy [0xBD, 0x81, 0x12]) (.lda (.abx 0x1281)) ∧
    Meets (busy [0xBD, 0x80, 0x12]) (.lda (.abx 0x1280)) ∧ ∀ op, Instr.bcs 0x80 ≠ .ill op :=
  ⟨⟨rfl, .inl rfl, rfl, _, rfl⟩, ⟨rfl, .inl rfl, rfl, _, rfl⟩, ⟨rfl, .inl rfl, rfl, _, rfl⟩, nofun⟩

theorem witness_CycAdvancesOncePerSubCycle :
    (∃ t, step (busy [0xEA]) = .next t) ∧ (busy [0xEA]).env = [] ∧
    (∃ t, step (withMoves [.lines true false] (busy [0xEA])) = .next t) :=
  ⟨⟨_, (step_gives_instruction (.inl rfl) rfl).full rfl⟩, rfl, ⟨_, (step_gives_interrupt rfl (.inl ⟨rfl, rfl⟩)).full rfl⟩⟩

theorem witness_NmiIsTakenAtTheBoundary :
    (withMoves [.lines true true] (busy [0xEA])).fullMemory ∧
    (withMoves [.lines true true] (busy [0xEA])).env = [.lines true true] := ⟨rfl, rfl⟩

theorem witness_IrqIsTakenWhenIIsClear :
    (withMoves [.lines false true] (busy [0xEA])).fullMemory ∧
    (withMoves [.lines false true] (busy [0xEA])).env = [.lines false true] ∧
    (withMoves [.lines false true] (busy [0xEA])).flags.i = false := ⟨rfl, rfl, rfl⟩

/-- Addresses on both sides of page 1. -/
theorem witness_FrameLiesInPageOne : hi 0x00FF ≠ 0x01 ∧ hi 0x0200 ≠ 0x01 := by decide

/-- The handler state is the one the entry left. -/
theorem witness_RtiReturnsFromAnInterrupt : ∃ s t h : State, ∃ nmi irq rest,
    s.env = .lines nmi irq :: rest ∧ (nmi = true ∨ irq = true ∧ s.flags.i = false) ∧ step s = .next t ∧
    h.fullMemory ∧ h.sp = t.sp ∧
    ∀ k : Byte, k ∈ [(1 : Byte), 2, 3] → h.mem.read (stackAddr (t.sp + k)) = t.mem.read (stackAddr (t.sp + k)) :=
  have h := (step_gives_interrupt (s := withMoves [.lines false true] (busy [])) rfl
    (.inr ⟨rfl, rfl, rfl, rfl⟩)).full rfl
  ⟨_, _, _, false, true, [], rfl, .inr ⟨rfl, rfl⟩, h, by exact busy_full [], rfl, fun _ _ => rfl⟩

/-- Both clauses: a full bus, and the largest bus without the vector's high byte. -/
theorem witness_ResetStepLoadsTheVector :
    (withMoves [.reset] (busy [])).env = [.reset] ∧ (withMoves [.reset] (busy [])).fullMemory ∧
    ({ withMoves [.reset] (busy []) with memSize := 0xFFFD } : State).memSize ≤ 0xFFFD := ⟨rfl, rfl, Nat.le_refl _⟩

theorem witness_EveryStepKeepsTheInvariant : State.reset.inv ∧ ∃ t, step State.reset = .next t :=
  ⟨⟨Memory.wf_nil, nofun, Nat.le_refl _⟩, _, (step_gives_instruction (.inl rfl) rfl).full rfl⟩

theorem witness_FullMemoryNeverStops : (busy []).fullMemory := rfl

/-- A step that stops at its second push, with no move in the queue. -/
theorem witness_OnlyBusRangeStopsAStep :
    let s := { start 0 0 0 0x00 0x20 0x0110 [(0x0110, 0x20), (0x0112, 0x40)] with memSize := 0x01FF }
    (∃ t, step s = .fault (.busRange 0x01FF t)) ∧ s.env = [] := ⟨⟨_, rfl⟩, rfl⟩

/-- The last address the bus backs, and the first one it does not. -/
theorem witness_BusTransactions :
    (0x7FFF : Word).toNat < ({ busy [] with memSize := 0x8000 } : State).memSize ∧
    ({ busy [] with memSize := 0x8000 } : State).memSize ≤ (0x8000 : Word).toNat := by decide

/-- Instructions that write none of `A`, `X`, `Y`, `S`. -/
theorem witness_RegistersChangeOnlyByTheirWriters :
    (∃ t, exec (.cmp (.abx 0x1281)) (busy []) = .next t) ∧ writesA (.cmp (.abx 0x1281)) = false ∧
    writesX (.cmp (.abx 0x1281)) = false ∧ writesY (.cmp (.abx 0x1281)) = false ∧ writesS (.cmp (.abx 0x1281)) = false :=
  ⟨exec_next _ _ rfl, rfl, rfl, rfl, rfl⟩

/-- An instruction that writes no flag. -/
theorem witness_FlagsChangeOnlyByTheirWriters :
    (∃ t, exec .txs (busy []) = .next t) ∧ writesN .txs = false ∧ writesV .txs = false ∧ writesD .txs = false ∧
    writesI .txs = false ∧ writesZ .txs = false ∧ writesC .txs = false :=
  ⟨exec_next _ _ rfl, rfl, rfl, rfl, rfl, rfl, rfl⟩

/-- A store and an address beside it. -/
theorem witness_MemoryChangesOnlyWhereStored :
    (∃ t, exec (.sta (.abx 0x1281)) (busy []) = .next t) ∧
    storedAddrs (.sta (.abx 0x1281)) (busy []) = [0x1300] ∧ (0x1200 : Word) ∉ [(0x1300 : Word)] :=
  ⟨exec_next _ _ rfl, rfl, by decide⟩

theorem witness_InstructionsLeaveTheSurroundings : ∃ t, exec .brk (busy []) = .next t := exec_next _ _ rfl

theorem witness_ResolversGiveTheEffectiveAddress : (busy []).fullMemory := rfl

/-- Each of the three modes, without and with the carry. -/
theorem witness_PageCrossCycleByClass : (busy []).fullMemory ∧
    carries (.abx 0x1280) (busy []) = some false ∧ carries (.abx 0x1281) (busy []) = some true ∧
    carries (.aby 0x12FE) (busy []) = some false ∧ carries (.aby 0x12FF) (busy []) = some true ∧
    carries (.izy 0x10) (busy []) = some false ∧
    carries (.izy 0x10) ({ busy [] with mem := [(0x10, 0xFF)] } : State) = some true :=
  ⟨rfl, rfl, rfl, rfl, rfl, rfl, rfl⟩

/-- The statements whose one hypothesis is a full bus, each named here: a state that meets it. -/
theorem witness_LoadsPutTheOperandInTheRegister : (busy []).fullMemory := rfl
theorem witness_StoresWriteTheRegister : (busy []).fullMemory := rfl
theorem witness_PushesWriteTheStackSlot : (busy []).fullMemory := rfl
theorem witness_PullsReadTheSlotAbove : (busy []).fullMemory := rfl
theorem witness_StackSymmetry : (busy []).fullMemory := rfl
theorem witness_LogicCombinesAWithTheOperand : (busy []).fullMemory := rfl
theorem witness_BitTestsTheOperand : (busy []).fullMemory := rfl
theorem witness_AdcAddsWithCarry : (busy []).fullMemory := rfl
theorem witness_SbcIsAdcOfTheInvertedOperand : (busy []).fullMemory := rfl
theorem witness_ComparesSetCarryZeroNegative : (busy []).fullMemory := rfl
theorem witness_IncDecModifyMemory : (busy []).fullMemory := rfl
theorem witness_MemoryShifts : (busy []).fullMemory := rfl
theorem witness_JmpSetsPcToTheEffectiveAddress : (busy []).fullMemory := rfl
theorem witness_JsrPushesAndJumps : (busy []).fullMemory := rfl
theorem witness_RtsPullsAndAddsOne : (busy []).fullMemory := rfl
theorem witness_BrkEntersTheHandler : (busy []).fullMemory := rfl
theorem witness_RtiRestoresFlagsAndPc : (busy []).fullMemory := rfl

theorem witness_StoredByteReadsBack : ∃ t, exec (.sta (.izy 0x10)) (busy []) = .next t := exec_next _ _ rfl

/-- 0x80 + 0x80 with a carry in: both the unsigned and the signed sum are out of range. -/
theorem witness_AdcFlagsReportUnsignedAndSignedOverflow : ∃ t, exec (.adc (.imm 0x80)) (busy []) = .next t :=
  exec_next _ _ rfl

theorem witness_SbcSubtractsWithBorrow : ∃ t, exec (.sbc (.imm 0x01)) (busy []) = .next t := exec_next _ _ rfl

theorem witness_AdcThenSbcRestoresA : ∃ s t u w : State, s.flags.c = false ∧
    exec (.adc (.imm 0x20)) s = .next t ∧ exec .sec t = .next u ∧
    operandByte (.imm 0x20) u = operandByte (.imm 0x20) s ∧ exec (.sbc (.imm 0x20)) u = .next w := by
  let s := start 0xF0 0 0 0xFD 0x20 0x0202 []
  exact ⟨s, _, _, _, rfl, (exec_gives _ s).full rfl, rfl, rfl, (exec_gives _ _).full rfl⟩

/-- `D` set, ADC and SBC. -/
theorem witness_DecimalFlagHasNoEffect :
    (∃ t, exec (.adc (.imm 0x01)) (start 0x09 0 0 0xFD 0x28 0x0202 []) = .next t) ∧
    (∃ t, exec (.sbc (.imm 0x01)) (start 0x10 0 0 0xFD 0x29 0x0202 []) = .next t) :=
  ⟨exec_next _ _ rfl, exec_next _ _ rfl⟩

theorem witness_RtsReturnsFromJsr : ∃ s t h : State, exec (.jsr 0x4000) s = .next t ∧ h.fullMemory ∧ h.sp = t.sp ∧
    ∀ k : Byte, k ∈ [(1 : Byte), 2] → h.mem.read (stackAddr (t.sp + k)) = t.mem.read (stackAddr (t.sp + k)) :=
  ⟨busy [], _, _, (exec_gives _ _).full rfl, by exact busy_full [], rfl, fun _ _ => rfl⟩

theorem witness_RtiReturnsFromBrk : ∃ s t h : State, exec .brk s = .next t ∧ h.fullMemory ∧ h.sp = t.sp ∧
    ∀ k : Byte, k ∈ [(1 : Byte), 2, 3] → h.mem.read (stackAddr (t.sp + k)) = t.mem.read (stackAddr (t.sp + k)) :=
  ⟨busy [], _, _, (exec_gives _ _).full rfl, by exact busy_full [], rfl, fun _ _ => rfl⟩

/-- A BRK, an NMI and an IRQ that each go on. -/
theorem witness_BreakBitTellsBrkFromIrq :
    (∃ t, exec .brk (busy []) = .next t) ∧
    (∃ t, step (withMoves [.lines true false] (busy [])) = .next t) ∧
    (busy []).flags.i = false ∧ ∃ t, step (withMoves [.lines false true] (busy [])) = .next t :=
  ⟨exec_next _ _ rfl, ⟨_, (step_gives_interrupt rfl (.inl ⟨rfl, rfl⟩)).full rfl⟩, rfl,
    ⟨_, (step_gives_interrupt rfl (.inr ⟨rfl, rfl, rfl, rfl⟩)).full rfl⟩⟩

/-- A run of two steps that stops at the first boundary after the first. -/
theorem witness_RunStopsAtTheFirstBoundaryAfterAStep :
    ∃ t, runUntil (fun v => v.pc == 0x02FF) 2 (busy [0xEA]) = .stopped t := by
  have h := (step_gives_instruction (s := busy [0xEA]) (.inl rfl) (i := .nop) (rest := [0, 0]) rfl).full rfl
  exact ⟨_, by rw [runUntil, h]; rfl⟩

end Sys2Proof.Tests
end

/-! SUPPORT AND CERTIFICATES. The opcode map against the encoder's opcodes, and what R84 and R87 of 30_encoding.md
say of the decoder. -/

namespace Sys2Proof

/-- The opcode of what an opcode byte's entry makes, read off at operand zero. -/
def Entry.opcodeAtZero (op : Byte) : Entry → Option Byte
  | .f1 i => i.opcode
  | .f2 make => (make 0).opcode
  | .f3 make => (make 0).opcode
  | .illegal => (Instr.ill op).opcode

/-- The opcode of what an entry makes is the same for every operand. -/
def OpcodeIgnoresOperand : Entry → Prop
  | .f2 make => ∀ b, (make b).opcode = (make 0).opcode
  | .f3 make => ∀ w, (make w).opcode = (make 0).opcode
  | .f1 _ | .illegal => True

theorem entries_opcode_ignores_operand : ∀ row ∈ opcodeMap, ∀ e ∈ row, OpcodeIgnoresOperand e := by
  simp [opcodeMap, row0, row1, row2, row3, row4, row5, row6, row7, row8, row9, rowA, rowB, rowC, rowD, rowE,
    rowF, OpcodeIgnoresOperand, Instr.opcode, Operand.mode, ShiftOperand.mode]

theorem entry_opcode_ignores_operand (op : Byte) : OpcodeIgnoresOperand (entry op) := by
  obtain ⟨row, hrow, he⟩ := entry_mem op
  exact entries_opcode_ignores_operand row hrow _ he

/-- The map by opcode (R88) agrees with the table by mnemonic (R89) at each of the 256 bytes. -/
theorem entry_opcodeAtZero : ∀ op : Byte, (entry op).opcodeAtZero op = some op := by
  decide +kernel

/-- What an opcode byte's entry makes has that byte as its opcode, whatever the operand is. -/
def HasOpcode (op : Byte) : Entry → Prop
  | .f1 i => i.opcode = some op
  | .f2 make => ∀ b, (make b).opcode = some op
  | .f3 make => ∀ w, (make w).opcode = some op
  | .illegal => (Instr.ill op).opcode = some op

theorem hasOpcode_of_atZero {op : Byte} {e : Entry} (hsame : OpcodeIgnoresOperand e)
    (hzero : e.opcodeAtZero op = some op) : HasOpcode op e := by
  cases e with
  | f1 i => exact hzero
  | f2 make => exact fun b => (hsame b).trans hzero
  | f3 make => exact fun w => (hsame w).trans hzero
  | illegal => exact hzero

theorem entry_has_opcode (op : Byte) : HasOpcode op (entry op) :=
  hasOpcode_of_atZero (entry_opcode_ignores_operand op) (entry_opcodeAtZero op)

/-- Settles O3: by the four kinds of entry, each with its decoding, its opcode and its format's length. -/
theorem everyOpcodeByteDecodes : Obligations.EveryOpcodeByteDecodes := by
  intro op b1 b2
  have hop := entry_has_opcode op
  have hlen := entry_has_format_length op
  cases he : entry op with
  | f1 i =>
    rw [he] at hop hlen
    exact ⟨i, [b1, b2], decode_f1 he _, hop, by rw [hlen]; rfl⟩
  | f2 make =>
    rw [he] at hop hlen
    exact ⟨make b1, [b2], decode_f2 he b1 _, hop b1, by rw [hlen]; rfl⟩
  | f3 make =>
    rw [he] at hop hlen
    exact ⟨make (join b2 b1), [], decode_f3 he b1 b2 _, hop _, by rw [hlen]; rfl⟩
  | illegal =>
    rw [he] at hop
    exact ⟨.ill op, [b1, b2], decode_illegal he _, hop, rfl⟩

/-- Settles O5: the entry of each of the four bytes, and how an entry of its format decodes. -/
theorem sourceOpcodesDecode : Obligations.SourceOpcodesDecode := by
  have hlda : entry 0xA9 = .f2 fun b => .lda (.imm b) := rfl
  have hadc : entry 0x69 = .f2 fun b => .adc (.imm b) := rfl
  have hjsr : entry 0x20 = .f3 .jsr := rfl
  have hrts : entry 0x60 = .f1 .rts := rfl
  exact ⟨decode_f2 hlda 0x00 [], decode_f2 hadc 0x01 [], decode_f3 hjsr 0x00 0x40 [], decode_f1 hrts []⟩

end Sys2Proof

/-! SUPPORT AND CERTIFICATES. Indexing a 16-bit base, against R111 of 40_execute_and_addressing.md. -/

namespace Sys2Proof.Machine

/-- Bit 8 of the 9-bit sum of two bytes, as a number, is the sum's carry. -/
theorem toNat_testBit_byte_sum (l r : Byte) :
    ((l.toNat + r.toNat).testBit 8).toNat = (l.toNat + r.toNat) / 256 := by
  rw [Nat.toNat_testBit]
  omega

/-- The carry of the model's comparison (R115) is bit 8 of the 9-bit sum (R111). -/
theorem carry_eq_testBit_byte_sum (l r : Byte) :
    decide (256 ≤ l.toNat + r.toNat) = (l.toNat + r.toNat).testBit 8 := by
  rw [Nat.testBit_eq_decide_div_mod_eq, decide_eq_decide]
  omega

theorem add_zext16_toNat (w : Word) (r : Byte) : (w + zext16 r).toNat = (w.toNat + r.toNat) % 65536 := by
  rw [BitVec.toNat_add, zext16_toNat]

/-- The low byte of an indexed base is the 9-bit sum without its bit 8. -/
theorem lo_add_zext16 (w : Word) (r : Byte) :
    lo (w + zext16 r) = BitVec.ofNat 8 ((lo w).toNat + r.toNat) := by
  apply BitVec.eq_of_toNat_eq
  rw [lo_toNat, add_zext16_toNat, BitVec.toNat_ofNat, lo_toNat]
  omega

/-- The high byte of an indexed base is raised by bit 8 of the 9-bit sum, modulo 256. -/
theorem hi_add_zext16 (w : Word) (r : Byte) :
    hi (w + zext16 r) =
      BitVec.ofNat 8 ((hi w).toNat + (((lo w).toNat + r.toNat).testBit 8).toNat) := by
  apply BitVec.eq_of_toNat_eq
  rw [toNat_testBit_byte_sum, hi_toNat, add_zext16_toNat, BitVec.toNat_ofNat, hi_toNat, lo_toNat]
  omega

theorem indexBase_pageCross (cls : Access) (w : Word) (r : Byte) (s : State) :
    (indexBase cls w r s).pageCross = ((lo w).toNat + r.toNat).testBit 8 := by
  rw [indexBase_eq]
  exact carry_eq_testBit_byte_sum (lo w) r

theorem indexBase_ea (cls : Access) (w : Word) (r : Byte) (s : State) :
    (indexBase cls w r s).ea = w + zext16 r := by
  rw [indexBase_eq]

end Sys2Proof.Machine

namespace Sys2Proof

open Machine

/-- Settles O27: both resolvers index the base by their register, and the sum modulo 65536 splits at bit 8 of the
9-bit sum of the low bytes. -/
theorem pageCrossIsTheCarry : Obligations.PageCrossIsTheCarry := by
  intro cls w s indexed
  have hindexed (r : Byte) : indexed (indexBase cls w r s) r := by
    refine ⟨indexBase_pageCross cls w r s, ?_, ?_, ?_⟩ <;> rw [indexBase_ea]
    · exact lo_add_zext16 w r
    · exact hi_add_zext16 w r
    · exact add_zext16_toNat w r
  exact ⟨⟨_, rfl, hindexed s.x⟩, ⟨_, rfl, hindexed s.y⟩⟩

end Sys2Proof

/-! SUPPORT AND CERTIFICATES. The instructions that stay off the bus, and the transfers among them, against R105 of
40_execute_and_addressing.md and R148 to R154 of 41_load_store_transfer.md. -/

namespace Sys2Proof

theorem Operand.mode_ne_imp (o : Operand) : o.mode ≠ .imp := by
  cases o <;> exact nofun

theorem ShiftOperand.mode_ne_imp (o : ShiftOperand) : o.mode ≠ .imp := by
  cases o with
  | acc => exact nofun
  | mem o => exact o.mode_ne_imp

theorem JumpOperand.mode_ne_imp (o : JumpOperand) : o.mode ≠ .imp := by
  cases o <;> exact nofun

end Sys2Proof

namespace Sys2Proof.Machine

/-- An `IMP` instruction of two cycles is fetched in the first and idles in the second (R105, R295): it makes no
data access, so it answers its effect on a bus of any size. -/
theorem exec_of_imp_two_cycles {i : Instr} (hmode : i.mode = some .imp) (hcycles : baseCycles i = some 2)
    (s : State) : exec i s = .next (effect i s) := by
  cases i with
  | tax | tay | txa | tya | tsx | txs | inx | iny | dex | dey | nop => rfl
  | clc | cld | cli | clv | sec | sed | sei => rfl
  | pha | php | pla | plp | rts | rti | brk => exact nomatch hcycles
  | asl o | lsr o | rol o | ror o => exact absurd (Option.some.inj hmode) o.mode_ne_imp
  | jmp o => exact absurd (Option.some.inj hmode) o.mode_ne_imp
  | jsr | bcc | bcs | bne | beq | bpl | bmi | bvc | bvs | ill => exact nomatch hmode
  | _ o => exact absurd (Option.some.inj hmode) o.mode_ne_imp

end Sys2Proof.Machine

namespace Sys2Proof

open Machine

/-- Settles O32: each transfer is an `IMP` instruction of two cycles (R148), and its effect is the stated state. -/
theorem transfersCopyARegister : Obligations.TransfersCopyARegister := by
  intro s zn s'
  have htransfer (i : Instr) (hmode : i.mode = some .imp) (hcycles : baseCycles i = some 2) :
      exec i s = .next (effect i s) := exec_of_imp_two_cycles hmode hcycles s
  exact ⟨htransfer .tax rfl rfl, htransfer .tay rfl rfl, htransfer .txa rfl rfl, htransfer .tya rfl rfl,
    htransfer .tsx rfl rfl, htransfer .txs rfl rfl⟩

end Sys2Proof

/-! SUPPORT AND CERTIFICATES. The pushes, against R160 and R161 of 42_stack.md. -/

namespace Sys2Proof

open Machine

/-- R161: the flag byte PHP pushes has bit 5 and the Break bit set. -/
theorem packP_true (f : Flags) :
    packP true f = BitVec.ofBoolListBE [f.n, f.v, true, true, f.d, f.i, f.z, f.c] := rfl

/-- Settles O33: on a full bus each push answers its effect, and PHP's byte is the packed flags with the Break bit
set. -/
theorem pushesWriteTheStackSlot : Obligations.PushesWriteTheStackSlot := by
  intro s hfull p
  have hp : packP true s.flags = p := packP_true s.flags
  have hpha : exec .pha s = .next (effect .pha s) := (exec_gives .pha s).full hfull
  have hphp : exec .php s = .next (effect .php s) := (exec_gives .php s).full hfull
  exact ⟨hpha, hp ▸ hphp⟩

end Sys2Proof

/-! SUPPORT AND CERTIFICATES. The jumps, and the return from a call, against R117, R118, R210 and R213 of
40_execute_and_addressing.md and 46_jump_branch.md. -/

namespace Sys2Proof.Machine

/-- A word pushed high byte first is read back from its two slots: the second write leaves the first slot alone. -/
theorem join_read_of_two_writes (m : Memory) (sp : Byte) (w : Word) :
    let m' := (m.write (stackAddr sp) (hi w)).write (stackAddr (sp - 1)) (lo w)
    join (m'.read (stackAddr sp)) (m'.read (stackAddr (sp - 1))) = w := by
  intro m'
  have hne : stackAddr sp ≠ stackAddr (sp - 1) := fun h => by
    have : sp = sp - 1 := stackAddr_inj.1 h
    bv_omega
  have hhi : m'.read (stackAddr sp) = hi w := by
    rw [Memory.read_write_other _ _ hne, Memory.read_write_same]
  have hlo : m'.read (stackAddr (sp - 1)) = lo w := Memory.read_write_same _ _ _
  rw [hhi, hlo, join_hi_lo]

/-- The word above the stack pointer after a JSR is the address of the JSR's last byte (R211). -/
theorem effect_jsr_pushed_word (w : Word) (s : State) :
    let t := effect (.jsr w) s
    join (t.mem.read (stackAddr (t.sp + 2))) (t.mem.read (stackAddr (t.sp + 1))) = s.pc - 1 := by
  intro t
  have hhigh : t.sp + 2 = s.sp := BitVec.sub_add_cancel s.sp 2
  have hlow : t.sp + 1 = s.sp - 1 := by
    show s.sp - 2 + 1 = s.sp - 1
    bv_omega
  rw [hhigh, hlow]
  exact join_read_of_two_writes s.mem s.sp (s.pc - 1)

end Sys2Proof.Machine

namespace Sys2Proof

open Machine

/-- Settles O52: RTS pulls the word that JSR pushed, the address before the next instruction, and adds the one. -/
theorem rtsReturnsFromJsr : Obligations.RtsReturnsFromJsr := by
  intro w s t h hjsr hfull hsp hkept
  obtain rfl : t = effect (.jsr w) s := (exec_gives _ s).eq_of_next hjsr
  have hlow := hkept 1 (by simp)
  have hhigh := hkept 2 (by simp)
  refine ⟨effect .rts h, (exec_gives .rts h).full hfull, ?_, ?_⟩
  · calc (effect .rts h).pc
        = join (h.mem.read (stackAddr (h.sp + 2))) (h.mem.read (stackAddr (h.sp + 1))) + 1 := rfl
      _ = s.pc - 1 + 1 := by rw [hsp, hlow, hhigh, effect_jsr_pushed_word]
      _ = s.pc := BitVec.sub_add_cancel s.pc 1
  · calc (effect .rts h).sp
        = h.sp + 2 := rfl
      _ = s.sp - 2 + 2 := congrArg (· + 2) hsp
      _ = s.sp := BitVec.sub_add_cancel s.sp 2

/-- Settles O49: on a full bus each form of JMP answers its effect, which is the stated state: the pointer of the
indirect form is the word `jumpPointerWord` reads (R117, R118). -/
theorem jmpSetsPcToTheEffectiveAddress : Obligations.JmpSetsPcToTheEffectiveAddress := by
  intro w s hfull q target
  have hjmp (o : JumpOperand) : exec (.jmp o) s = .next (effect (.jmp o) s) := (exec_gives _ s).full hfull
  exact ⟨hjmp (.abs w), hjmp (.ind w)⟩

end Sys2Proof

/-! SUPPORT AND CERTIFICATES. The decoder and the encoder against each other (30_encoding.md R81 to R84, R88 to R90). -/

namespace Sys2Proof

/-- The instruction is one that the entry of an opcode byte makes. -/
def Entry.Makes (op : Byte) : Entry → Instr → Prop
  | .f1 j, i => j = i
  | .f2 make, i => ∃ b, make b = i
  | .f3 make, i => ∃ w, make w = i
  | .illegal, i => i = .ill op

/-- The instructions an entry makes carry the operand bytes of its format, low byte of an address first (R81, R83). -/
def HasFormatBytes : Entry → Prop
  | .f1 i => i.operandBytes = []
  | .f2 make => ∀ b, (make b).operandBytes = [b]
  | .f3 make => ∀ w, (make w).operandBytes = [lo w, hi w]
  | .illegal => True

/-- The instructions a legal entry makes are ones of R89. -/
def MakesWellFormed : Entry → Prop
  | .f1 i => i.wellFormed = true
  | .f2 make => ∀ b, (make b).wellFormed = true
  | .f3 make => ∀ w, (make w).wellFormed = true
  | .illegal => True

theorem entries_have_format_bytes : ∀ row ∈ opcodeMap, ∀ e ∈ row, HasFormatBytes e := by
  simp [opcodeMap, row0, row1, row2, row3, row4, row5, row6, row7, row8, row9, rowA, rowB, rowC, rowD, rowE,
    rowF, HasFormatBytes, Instr.operandBytes, Operand.bytes, ShiftOperand.bytes, JumpOperand.bytes]

theorem entries_make_wellFormed : ∀ row ∈ opcodeMap, ∀ e ∈ row, MakesWellFormed e := by
  simp [opcodeMap, row0, row1, row2, row3, row4, row5, row6, row7, row8, row9, rowA, rowB, rowC, rowD, rowE,
    rowF, MakesWellFormed, Instr.wellFormed, Operand.mode, ShiftOperand.mode, accumulatorModes, storeModes,
    compareIndexModes, modifyModes]

/-- What holds of every entry of the map holds of the entry of every opcode byte (R84). -/
theorem entry_of_entries {P : Entry → Prop} (h : ∀ row ∈ opcodeMap, ∀ e ∈ row, P e) (op : Byte) : P (entry op) := by
  obtain ⟨row, hrow, he⟩ := entry_mem op
  exact h row hrow _ he

/-- The entry is the illegal fallback. -/
def Entry.isIllegal : Entry → Bool
  | .illegal => true
  | .f1 _ | .f2 _ | .f3 _ => false

/-- The listed bytes of R90 have no other entry in the map of R88. -/
theorem entry_of_mem_illegalOpcodes : ∀ op ∈ illegalOpcodes, entry op = .illegal := by
  have hlisted : ∀ op ∈ illegalOpcodes, (entry op).isIllegal = true := by decide
  intro op hop
  have hill := hlisted op hop
  cases he : entry op with
  | illegal => rfl
  | f1 | f2 | f3 => rw [he] at hill; exact nomatch hill

/-- A fallback has an opcode only if its byte is listed, and then that byte (R90). -/
theorem opcode_ill_eq_some {q op : Byte} (h : (Instr.ill q).opcode = some op) : q ∈ illegalOpcodes ∧ q = op := by
  rw [Instr.opcode, Option.ite_none_right_eq_some] at h
  exact ⟨List.contains_iff_mem.1 h.1, Option.some.inj h.2⟩

/-- A byte whose entry is the fallback is one R90 lists. -/
theorem mem_illegalOpcodes_of_entry {op : Byte} (he : entry op = .illegal) : op ∈ illegalOpcodes := by
  have hop := entry_has_opcode op
  rw [he] at hop
  exact (opcode_ill_eq_some hop).1

/-- A well-formed instruction has an opcode, and the entry of that byte makes it: R89 read against R88, one group of
mnemonics for each list of modes. -/
theorem entry_makes_of_wellFormed (i : Instr) (h : i.wellFormed = true) :
    ∃ op, i.opcode = some op ∧ (entry op).Makes op i := by
  cases i with
  | lda o | and o | ora o | eor o | adc o | sbc o | cmp o =>
    cases o with
    | zpy => exact nomatch h
    | _ => exact ⟨_, rfl, _, rfl⟩
  | sta o =>
    cases o with
    | imm | zpy => exact nomatch h
    | _ => exact ⟨_, rfl, _, rfl⟩
  | ldx o =>
    cases o with
    | zpx | abx | izx | izy => exact nomatch h
    | _ => exact ⟨_, rfl, _, rfl⟩
  | ldy o =>
    cases o with
    | zpy | aby | izx | izy => exact nomatch h
    | _ => exact ⟨_, rfl, _, rfl⟩
  | stx o =>
    cases o with
    | zp | zpy | abs => exact ⟨_, rfl, _, rfl⟩
    | _ => exact nomatch h
  | sty o =>
    cases o with
    | zp | zpx | abs => exact ⟨_, rfl, _, rfl⟩
    | _ => exact nomatch h
  | bit o =>
    cases o with
    | zp | abs => exact ⟨_, rfl, _, rfl⟩
    | _ => exact nomatch h
  | cpx o | cpy o =>
    cases o with
    | imm | zp | abs => exact ⟨_, rfl, _, rfl⟩
    | _ => exact nomatch h
  | inc o | dec o =>
    cases o with
    | zp | zpx | abs | abx => exact ⟨_, rfl, _, rfl⟩
    | _ => exact nomatch h
  | asl o | lsr o | rol o | ror o =>
    cases o with
    | acc => exact ⟨_, rfl, rfl⟩
    | mem o =>
      cases o with
      | zp | zpx | abs | abx => exact ⟨_, rfl, _, rfl⟩
      | _ => exact nomatch h
  | jmp o => cases o <;> exact ⟨_, rfl, _, rfl⟩
  | jsr | bcc | bcs | bne | beq | bpl | bmi | bvc | bvs => exact ⟨_, rfl, _, rfl⟩
  | ill op =>
    have hmakes : (Entry.illegal).Makes op (.ill op) := rfl
    exact ⟨op, if_pos h, entry_of_mem_illegalOpcodes op (List.contains_iff_mem.1 h) ▸ hmakes⟩
  | _ => exact ⟨_, rfl, rfl⟩

/-- What an opcode byte's entry makes, the decoder reads back from that byte and the operand bytes (R81, R83). -/
theorem decode_of_makes {op : Byte} {i : Instr} (hmakes : (entry op).Makes op i) (rest : List Byte) :
    decode (op :: (i.operandBytes ++ rest)) = .ok (i, rest) := by
  have hbytes := entry_of_entries entries_have_format_bytes op
  cases he : entry op with
  | f1 j =>
    rw [he] at hmakes hbytes
    obtain rfl := hmakes
    rw [show j.operandBytes = [] from hbytes]
    exact decode_f1 he rest
  | f2 make =>
    rw [he] at hmakes hbytes
    obtain ⟨b, rfl⟩ := hmakes
    rw [show (make b).operandBytes = [b] from hbytes b]
    exact decode_f2 he b rest
  | f3 make =>
    rw [he] at hmakes hbytes
    obtain ⟨w, rfl⟩ := hmakes
    rw [show (make w).operandBytes = [lo w, hi w] from hbytes w]
    simpa using decode_f3 he (lo w) (hi w) rest
  | illegal =>
    rw [he] at hmakes
    obtain rfl := hmakes
    exact decode_illegal he rest

/-- Whatever the decoder reads, the first byte's entry makes it, and the bytes are that byte, the instruction's operand
bytes and the rest. -/
theorem makes_of_decode {bytes rest : List Byte} {i : Instr} (h : decode bytes = .ok (i, rest)) :
    ∃ op, (entry op).Makes op i ∧ bytes = op :: (i.operandBytes ++ rest) := by
  cases bytes with
  | nil => exact nomatch h
  | cons op tail =>
    refine ⟨op, ?_⟩
    have hbytes := entry_of_entries entries_have_format_bytes op
    cases he : entry op with
    | f1 j =>
      rw [he] at hbytes
      rw [decode_f1 he] at h
      obtain ⟨rfl, rfl⟩ := Prod.mk.inj (Except.ok.inj h)
      exact ⟨rfl, by rw [show j.operandBytes = [] from hbytes]; rfl⟩
    | illegal =>
      rw [decode_illegal he] at h
      obtain ⟨rfl, rfl⟩ := Prod.mk.inj (Except.ok.inj h)
      exact ⟨rfl, rfl⟩
    | f2 make =>
      rw [he] at hbytes
      cases tail with
      | nil => rw [decode_f2_short he] at h; exact nomatch h
      | cons b tail =>
        rw [decode_f2 he] at h
        obtain ⟨rfl, rfl⟩ := Prod.mk.inj (Except.ok.inj h)
        exact ⟨⟨b, rfl⟩, by rw [show (make b).operandBytes = [b] from hbytes b]; rfl⟩
    | f3 make =>
      rw [he] at hbytes
      match tail, h with
      | [], h => rw [(decode_f3_short he 0).1] at h; exact nomatch h
      | [l], h => rw [(decode_f3_short he l).2] at h; exact nomatch h
      | l :: b :: tail, h =>
        rw [decode_f3 he] at h
        obtain ⟨rfl, rfl⟩ := Prod.mk.inj (Except.ok.inj h)
        have hword : (make (join b l)).operandBytes = [l, b] := by simpa using hbytes (join b l)
        exact ⟨⟨join b l, rfl⟩, by rw [hword]; rfl⟩

theorem opcode_of_makes {op : Byte} {i : Instr} (hmakes : (entry op).Makes op i) : i.opcode = some op := by
  have hop := entry_has_opcode op
  cases he : entry op with
  | f1 j => rw [he] at hmakes hop; exact hmakes ▸ hop
  | f2 make => rw [he] at hmakes hop; obtain ⟨b, rfl⟩ := hmakes; exact hop b
  | f3 make => rw [he] at hmakes hop; obtain ⟨w, rfl⟩ := hmakes; exact hop w
  | illegal => rw [he] at hmakes hop; exact hmakes ▸ hop

/-- The encoding of what an opcode byte's entry makes: that byte and the operand bytes. -/
theorem encode_of_makes {op : Byte} {i : Instr} (hmakes : (entry op).Makes op i) :
    encode i = some (op :: i.operandBytes) := by
  rw [encode, opcode_of_makes hmakes]
  rfl

theorem wellFormed_of_makes {op : Byte} {i : Instr} (hmakes : (entry op).Makes op i) : i.wellFormed = true := by
  have hwf := entry_of_entries entries_make_wellFormed op
  cases he : entry op with
  | f1 j => rw [he] at hmakes hwf; exact hmakes ▸ hwf
  | f2 make => rw [he] at hmakes hwf; obtain ⟨b, rfl⟩ := hmakes; exact hwf b
  | f3 make => rw [he] at hmakes hwf; obtain ⟨w, rfl⟩ := hmakes; exact hwf w
  | illegal =>
    rw [he] at hmakes
    obtain rfl := hmakes
    exact List.contains_iff_mem.2 (mem_illegalOpcodes_of_entry he)

/-- Settles O1: the entry of a well-formed instruction's opcode makes it, and the decoder reads back what an entry
makes. -/
theorem decodeOfEncodeGivesTheInstruction : Obligations.DecodeOfEncodeGivesTheInstruction := by
  intro i rest hwf
  obtain ⟨op, -, hmakes⟩ := entry_makes_of_wellFormed i hwf
  exact ⟨_, encode_of_makes hmakes, decode_of_makes hmakes rest⟩

/-- Settles O2: what the decoder reads is made by the first byte's entry, which makes well-formed instructions with that
byte as their opcode. -/
theorem decodedBytesAreTheEncoding : Obligations.DecodedBytesAreTheEncoding := by
  intro bytes rest i hdec
  obtain ⟨op, hmakes, rfl⟩ := makes_of_decode hdec
  exact ⟨wellFormed_of_makes hmakes, _, encode_of_makes hmakes, rfl⟩

/-- Settles O4: a listed byte has the fallback for its entry and an unlisted one does not; a fallback's opcode is its
own byte, the first one read. -/
theorem illegalBytesDecodeToTheFallback : Obligations.IllegalBytesDecodeToTheFallback := by
  refine ⟨by decide, fun op rest => ⟨⟨fun hop => decode_illegal (entry_of_mem_illegalOpcodes op hop) rest, ?_⟩, ?_⟩⟩
  · intro hdec
    have hwf : (Instr.ill op).wellFormed = true := (decodedBytesAreTheEncoding _ _ _ hdec).1
    exact List.contains_iff_mem.1 hwf
  · intro q rest' hdec
    obtain ⟨op', hmakes, hbytes⟩ := makes_of_decode hdec
    obtain ⟨rfl, hrest⟩ := List.cons.inj hbytes
    exact ⟨(opcode_ill_eq_some (opcode_of_makes hmakes)).2, hrest.symm⟩

end Sys2Proof

/-! SUPPORT AND CERTIFICATES. What the effect of an instruction leaves as it was: the surroundings, the registers
(10_state.md R24), the flags (R34) and the memory it does not store to; and the sub-cycles it spends
(40_execute_and_addressing.md R130). -/

namespace Sys2Proof.Machine

variable {s t : State}

/-! ### From `exec` and `step` to the effect -/

theorem exec_of_fullMemory (i : Instr) (hfull : s.fullMemory) : exec i s = .next (effect i s) :=
  (exec_gives i s).full hfull

theorem eq_effect_of_exec {i : Instr} (h : exec i s = .next t) : t = effect i s := (exec_gives i s).eq_of_next h

theorem step_instruction_of_fullMemory (hfull : s.fullMemory) (hrun : s.runsInstruction) {i : Instr}
    {rest : List Byte} (hdec : decode s.bytesAtPc = .ok (i, rest)) :
    step s = .next (effect i (s.fetched i.length)) :=
  (step_gives_instruction hrun hdec).full hfull

/-! ### The sub-cycles and the surroundings -/

/-- The sub-cycles of an instruction's effect are those R130 gives it. -/
theorem effect_bus (i : Instr) (s : State) : (effect i s).bus = s.bus ++ history i s := by
  cases i with
  | jmp o =>
    cases o with
    | abs w => exact (List.append_nil s.bus).symm
    | ind p => rfl
  | asl o | lsr o | rol o | ror o => cases o <;> rfl
  | pha | php | jsr | brk => simp [effect, history, Config.vecIrq]
  | _ => rfl

theorem effect_cyc (i : Instr) (s : State) : (effect i s).cyc = s.cyc + (history i s).length := by
  cases i with
  | jmp o => cases o <;> rfl
  | asl o | lsr o | rol o | ror o => cases o <;> rfl
  | _ => rfl

theorem effect_surroundings (i : Instr) (s : State) :
    (effect i s).memSize = s.memSize ∧ (effect i s).env = s.env ∧ (effect i s).draws = s.draws := by
  cases i with
  | jmp o => cases o <;> exact ⟨rfl, rfl, rfl⟩
  | asl o | lsr o | rol o | ror o => cases o <;> exact ⟨rfl, rfl, rfl⟩
  | _ => exact ⟨rfl, rfl, rfl⟩

/-! ### The registers: an instruction R24 does not list -/

theorem effect_a (i : Instr) (s : State) (h : writesA i = false) : (effect i s).a = s.a := by
  cases i with
  | lda | txa | tya | pla | and | ora | eor | adc | sbc => exact nomatch h
  | asl o | lsr o | rol o | ror o =>
    cases o with
    | acc => exact nomatch h
    | mem o => rfl
  | jmp o => cases o <;> rfl
  | _ => rfl

theorem effect_x (i : Instr) (s : State) (h : writesX i = false) : (effect i s).x = s.x := by
  cases i with
  | ldx | tax | tsx | inx | dex => exact nomatch h
  | asl o | lsr o | rol o | ror o => cases o <;> rfl
  | jmp o => cases o <;> rfl
  | _ => rfl

theorem effect_y (i : Instr) (s : State) (h : writesY i = false) : (effect i s).y = s.y := by
  cases i with
  | ldy | tay | iny | dey => exact nomatch h
  | asl o | lsr o | rol o | ror o => cases o <;> rfl
  | jmp o => cases o <;> rfl
  | _ => rfl

theorem effect_sp (i : Instr) (s : State) (h : writesS i = false) : (effect i s).sp = s.sp := by
  cases i with
  | txs | pha | php | pla | plp | jsr | rts | brk | rti => exact nomatch h
  | asl o | lsr o | rol o | ror o => cases o <;> rfl
  | jmp o => cases o <;> rfl
  | _ => rfl

/-! ### The flags: an instruction R34 does not list -/

theorem effect_flags_z (i : Instr) (s : State) (h : writesZ i = false) : (effect i s).flags.z = s.flags.z := by
  cases i with
  | sta | stx | sty | txs | pha | php | jsr | rts | brk | nop | ill => rfl
  | bcc | bcs | bne | beq | bpl | bmi | bvc | bvs | clc | cld | cli | clv | sec | sed | sei => rfl
  | jmp o => cases o <;> rfl
  | _ => exact nomatch h

theorem effect_flags_n (i : Instr) (s : State) (h : writesN i = false) : (effect i s).flags.n = s.flags.n := by
  cases i with
  | sta | stx | sty | txs | pha | php | jsr | rts | brk | nop | ill => rfl
  | bcc | bcs | bne | beq | bpl | bmi | bvc | bvs | clc | cld | cli | clv | sec | sed | sei => rfl
  | jmp o => cases o <;> rfl
  | _ => exact nomatch h

theorem effect_flags_v (i : Instr) (s : State) (h : writesV i = false) : (effect i s).flags.v = s.flags.v := by
  cases i with
  | adc | sbc | bit | clv | plp | rti => exact nomatch h
  | asl o | lsr o | rol o | ror o => cases o <;> rfl
  | jmp o => cases o <;> rfl
  | _ => rfl

theorem effect_flags_c (i : Instr) (s : State) (h : writesC i = false) : (effect i s).flags.c = s.flags.c := by
  cases i with
  | adc | sbc | cmp | cpx | cpy | asl | rol | lsr | ror | clc | sec | plp | rti => exact nomatch h
  | jmp o => cases o <;> rfl
  | _ => rfl

theorem effect_flags_i (i : Instr) (s : State) (h : writesI i = false) : (effect i s).flags.i = s.flags.i := by
  cases i with
  | sei | cli | brk | plp | rti => exact nomatch h
  | asl o | lsr o | rol o | ror o => cases o <;> rfl
  | jmp o => cases o <;> rfl
  | _ => rfl

theorem effect_flags_d (i : Instr) (s : State) (h : writesD i = false) : (effect i s).flags.d = s.flags.d := by
  cases i with
  | sed | cld | plp | rti => exact nomatch h
  | asl o | lsr o | rol o | ror o => cases o <;> rfl
  | jmp o => cases o <;> rfl
  | _ => rfl

/-! ### The memory an instruction does not store to -/

/-- An operation that begins with a resolver and answers has resolved the effective address. -/
theorem resolvedAddr_of_next {cls : Access} {o : Operand} {f : State → Except Fault State}
    (h : finish (resolve cls o s >>= f) = .next t) : resolvedAddr cls o s = [effAddr o s] := by
  cases hr : resolve cls o s with
  | error e => rw [hr] at h; exact nomatch h
  | ok r =>
    obtain rfl := (resolve_answers cls o s).eq_of_ok hr
    rw [resolvedAddr, hr]

theorem read_write_of_store {o : Operand} {v : Byte} (h : finish (writeOperand o v s) = .next t) {adr : Word}
    (hadr : adr ∉ resolvedAddr .w o s) (new : Byte) : (s.mem.write (effAddr o s) new).read adr = s.mem.read adr := by
  rw [resolvedAddr_of_next h, List.mem_singleton] at hadr
  exact Memory.read_write_other _ _ hadr

theorem read_write_of_modify {o : Operand} {f : Byte → Flags → Byte × Flags}
    (h : finish (modifyOperand o f s) = .next t) {adr : Word} (hadr : adr ∉ resolvedAddr .rmw o s) (new : Byte) :
    (s.mem.write (effAddr o s) new).read adr = s.mem.read adr := by
  rw [resolvedAddr_of_next h, List.mem_singleton] at hadr
  exact Memory.read_write_other _ _ hadr

theorem read_write_of_shift {f : Shift} {o : Operand} (h : finish (shiftOp f (.mem o) s) = .next t) {adr : Word}
    (hadr : adr ∉ resolvedAddr .rmw o s) (new : Byte) : (s.mem.write (effAddr o s) new).read adr = s.mem.read adr :=
  read_write_of_modify (f := fun m fl => ((f m fl.c).1, shiftFlags (f m fl.c) fl)) h hadr new

/-- An interrupt frame changes its three slots alone. -/
theorem read_pushFrame_of_not_mem (brk : Bool) (pc : Word) {adr : Word}
    (hadr : adr ∉ [stackAddr s.sp, stackAddr (s.sp - 1), stackAddr (s.sp - 2)]) :
    (pushFrame brk pc s).read adr = s.mem.read adr := by
  simp only [List.mem_cons, List.not_mem_nil, or_false, not_or] at hadr
  obtain ⟨hhigh, hlow, hflags⟩ := hadr
  rw [pushFrame, Memory.read_write_other _ _ hflags, Memory.read_write_other _ _ hlow,
    Memory.read_write_other _ _ hhigh]

theorem read_effect_of_not_stored {i : Instr} (hexec : exec i s = .next t) {adr : Word}
    (hadr : adr ∉ storedAddrs i s) : (effect i s).mem.read adr = s.mem.read adr := by
  cases i with
  | sta o | stx o | sty o => exact read_write_of_store hexec hadr _
  | inc o | dec o => exact read_write_of_modify hexec hadr _
  | asl o | lsr o | rol o | ror o =>
    cases o with
    | acc => rfl
    | mem o => exact read_write_of_shift hexec hadr _
  | pha | php => exact Memory.read_write_other _ _ (List.ne_of_not_mem_cons hadr)
  | jsr w =>
    have hhigh : adr ≠ stackAddr s.sp := List.ne_of_not_mem_cons hadr
    have hlow : adr ≠ stackAddr (s.sp - 1) := List.ne_of_not_mem_cons (List.not_mem_of_not_mem_cons hadr)
    exact (Memory.read_write_other _ _ hlow).trans (Memory.read_write_other _ _ hhigh)
  | brk => exact read_pushFrame_of_not_mem true (s.pc + 1) hadr
  | jmp o => cases o <;> rfl
  | _ => rfl

end Sys2Proof.Machine

namespace Sys2Proof

open Machine

/-- Settles O6: on a full bus the step and `exec` of the fetched state both answer the instruction's effect. -/
theorem stepRunsTheDecodedInstruction : Obligations.StepRunsTheDecodedInstruction := by
  intro s i rest hfull hrun _ hdec
  have hfetched : (s.fetched i.length).fullMemory := hfull
  rw [step_instruction_of_fullMemory hfull hrun hdec, exec_of_fullMemory i hfetched]

/-- Settles O22: a next state is the instruction's effect, which leaves each register of an unlisted instruction. -/
theorem registersChangeOnlyByTheirWriters : Obligations.RegistersChangeOnlyByTheirWriters := by
  intro i s t hexec
  obtain rfl := eq_effect_of_exec hexec
  exact ⟨effect_a i s, effect_x i s, effect_y i s, effect_sp i s⟩

/-- Settles O23: a next state is the instruction's effect, which leaves each flag of an unlisted instruction. -/
theorem flagsChangeOnlyByTheirWriters : Obligations.FlagsChangeOnlyByTheirWriters := by
  intro i s t hexec
  obtain rfl := eq_effect_of_exec hexec
  exact ⟨effect_flags_n i s, effect_flags_v i s, effect_flags_d i s, effect_flags_i i s, effect_flags_z i s,
    effect_flags_c i s⟩

/-- Settles O24: an instruction that answers has resolved its effective address, and writes there or to its stack slots
alone. -/
theorem memoryChangesOnlyWhereStored : Obligations.MemoryChangesOnlyWhereStored := by
  intro i s t hexec adr hadr
  have hread := read_effect_of_not_stored hexec hadr
  obtain rfl := eq_effect_of_exec hexec
  exact hread

/-- Settles O25: the effect of every instruction leaves the three fields, and appends its history to the bus history,
one sub-cycle each. -/
theorem instructionsLeaveTheSurroundings : Obligations.InstructionsLeaveTheSurroundings := by
  intro i s t hexec
  obtain rfl := eq_effect_of_exec hexec
  obtain ⟨hmemSize, henv, hdraws⟩ := effect_surroundings i s
  exact ⟨hmemSize, henv, hdraws, history i s, effect_bus i s, effect_cyc i s⟩

end Sys2Proof

/-! SUPPORT AND CERTIFICATES. What every step runs, whether it answers or stops (20_memory.md R53, R55, R71), the
invariant of the state as data, and the one way to stop (60_exceptions.md R251, R252). -/

namespace Sys2Proof.Machine

variable {s t : State}

/-- Whether the step answers or stops with `BusRange` of an address the bus does not back, it has run completed
sub-cycles from `s`; it is never refused. -/
def StepRuns (s : State) (r : Result) : Prop :=
  (∀ t, r = .next t → Ran s t) ∧
  (∀ f, r = .fault f → ∃ (a : Word) (t : State), f = .busRange a t ∧ s.memSize ≤ a.toNat ∧ Ran s t) ∧
  ∀ x, r ≠ .refused x

namespace StepRuns

theorem next (h : Ran s t) : StepRuns s (.next t) := ⟨fun _ ht => by cases ht; exact h, nofun, nofun⟩

theorem finish {e : Except Fault State} (h : Runs id s e) : StepRuns s (finish e) := by
  cases e with
  | ok t => exact next (h.1 t rfl)
  | error f => exact ⟨nofun, fun _ hf => by cases hf; exact h.2 f rfl, nofun⟩

/-- The same from a state before. -/
theorem of {u : State} {r : Result} (hu : Ran s u) (h : StepRuns u r) : StepRuns s r := by
  obtain ⟨hnext, hfault, hrefused⟩ := h
  refine ⟨fun t ht => hu.trans (hnext t ht), fun f hf => ?_, hrefused⟩
  obtain ⟨a, t, rfl, ha, ht⟩ := hfault f hf
  obtain ⟨_, -, -, -, hsize, -⟩ := id hu
  exact ⟨a, t, rfl, hsize ▸ ha, hu.trans ht⟩

end StepRuns

/-! ### Every instruction -/

/-- Idle sub-cycles and an update of registers, flags or scratch. -/
theorem Ran.idles {n : Nat} (hb : t.bus = s.bus ++ List.replicate n .idle) (hc : t.cyc = s.cyc + n)
    (hm : t.mem = s.mem) (hn : t.memSize = s.memSize) : Ran s t := by
  have hreplay : replay (List.replicate n .idle) s.mem = s.mem := by
    clear hb hc
    induction n with
    | zero => rfl
    | succ n ih => exact ih
  refine ⟨_, hb, by simpa using hc, by rw [hm, hreplay], hn, fun a v hmem => ?_⟩
  exact nomatch List.eq_of_mem_replicate hmem

theorem branchIf_ran (taken : Bool) (off : Byte) (s : State) : Ran s (branchIf taken off s) := by
  rw [branchIf_eq]
  exact .idles (n := branchExtra taken off s) rfl (by simp [branchEffect]) rfl rfl

theorem shiftOp_runs (f : Shift) (o : ShiftOperand) (s : State) : Runs id s (shiftOp f o s) := by
  cases o with
  | acc => exact .ok (.idles (n := 1) rfl rfl rfl rfl)
  | mem o => exact modifyOperand_runs s o fun m fl => ((f m fl.c).1, shiftFlags (f m fl.c) fl)

theorem exec_runs (i : Instr) (s : State) : StepRuns s (exec i s) := by
  have hidle : Ran s (idle s) := .idle s
  have hidles : Ran s (idle (idle s)) := hidle.trans (.idle _)
  have hreads {o : Operand} {f : Byte × State → State} (hf : ∀ r, Ran r.2 (f r)) :
      StepRuns s (finish (readOperand o s >>= fun r => .ok (f r))) :=
    .finish ((readOperand_runs s o).update hf)
  cases i with
  | lda o | ldx o | ldy o | and o | ora o | eor o | bit o => exact hreads fun _ => .of_eq rfl rfl rfl rfl
  | adc o | sbc o | cmp o | cpx o | cpy o => exact hreads fun _ => .of_eq rfl rfl rfl rfl
  | sta o | stx o | sty o => exact .finish (writeOperand_runs s o _)
  | inc o | dec o => exact .finish (modifyOperand_runs s o _)
  | asl o | lsr o | rol o | ror o => exact .finish (shiftOp_runs _ o s)
  | pha | php => exact .finish (.of hidle (push_runs _ _))
  | pla | plp => exact .finish (.of hidles ((pull_runs _).update fun _ => .of_eq rfl rfl rfl rfl))
  | jmp o => exact .finish ((resolveJump_runs s o).update fun _ => .of_eq rfl rfl rfl rfl)
  | jsr w =>
    have hstart : Ran s (idle { s with ea := w }) := .idles (n := 1) rfl rfl rfl rfl
    exact .finish (.of hstart ((pushWord_runs _ _).update fun _ => .of_eq rfl rfl rfl rfl))
  | rts => exact .finish (.of hidles ((pullWord_runs _).update fun _ => .idles (n := 1) rfl rfl rfl rfl))
  | brk =>
    have hstart : Ran s { idle s with pc := s.pc + 1 } := .idles (n := 1) rfl rfl rfl rfl
    exact .finish (.of hstart (enterException_runs _ _ _))
  | rti => exact .finish (.of hidles (returnFromException_runs _))
  | bcc b | bcs b | bne b | beq b | bpl b | bmi b | bvc b | bvs b => exact .next (branchIf_ran _ b s)
  | ill op => exact .next (.idles (n := Config.illegalExtraCycles op) rfl rfl rfl rfl)
  | _ => exact .next (.idles (n := 1) rfl rfl rfl rfl)

/-! ### Every boundary -/

theorem instructionStep_runs (s : State) : StepRuns { s with bus := [] } (instructionStep s) := by
  have hbegin : Ran { s with bus := [] } { beginStep s with pageCross := false } := .of_eq rfl rfl rfl rfl
  obtain ⟨hok, herror⟩ := Runs.of hbegin (fetchInstr_runs _)
  unfold instructionStep
  split
  next i u hfetch => exact .of (hok _ hfetch) (exec_runs i u)
  next f hfetch => exact ⟨nofun, fun _ hf => by cases hf; exact herror f hfetch, nofun⟩

theorem interruptEntry_runs (vec : Word) (s : State) :
    StepRuns { s with bus := [] } (finish (interruptEntry vec s)) := by
  have hstart : Ran { s with bus := [] } (idle (idle (beginStep s))) := .idles (n := 2) rfl rfl rfl rfl
  exact .finish (.of hstart (enterException_runs _ false vec))

theorem boundary_runs (nmi irq : Bool) (s : State) : StepRuns { s with bus := [] } (boundary nmi irq s) := by
  unfold boundary
  split
  · exact interruptEntry_runs _ s
  · split
    · exact interruptEntry_runs _ s
    · exact instructionStep_runs s

/-- A step at a boundary with or without request lines runs sub-cycles from an empty bus history (R71). -/
theorem step_runs (henv : s.env = [] ∨ ∃ nmi irq rest, s.env = .lines nmi irq :: rest) :
    StepRuns { s with bus := [] } (step s) := by
  rcases henv with henv | ⟨nmi, irq, rest, henv⟩
  · have hstep : step s = boundary false false s := by simp [step, boundaryMove, henv]
    exact hstep ▸ boundary_runs false false s
  · have hstep : step s = boundary nmi irq { s with env := rest } := by simp [step, boundaryMove, henv]
    have hmove : Ran { s with bus := [] } { s with env := rest, bus := [] } := .of_eq rfl rfl rfl rfl
    exact hstep ▸ .of hmove (boundary_runs nmi irq _)

/-- What a run from an empty bus history has done, read off its last state. -/
theorem mem_cyc_of_ran (h : Ran { s with bus := [] } t) :
    t.mem = replay t.bus s.mem ∧ t.cyc = s.cyc + t.bus.length := by
  obtain ⟨h, hbus, hcyc, hmem, -, -⟩ := h
  obtain rfl : t.bus = h := hbus
  exact ⟨hmem, hcyc⟩

/-- The moves that can come at a boundary. -/
theorem env_cases (s : State) :
    (s.env = [] ∨ ∃ nmi irq rest, s.env = .lines nmi irq :: rest) ∨
    (∃ rest, s.env = .reset :: rest) ∨ ∃ rest, s.env = .zeroClock :: rest := by
  rcases s.env with _ | ⟨⟨nmi, irq⟩ | - | -, rest⟩ <;> simp

theorem step_memSize_of_next (h : step s = .next t) : t.memSize = s.memSize := by
  rcases env_cases s with henv | ⟨rest, henv⟩ | ⟨rest, henv⟩
  · obtain ⟨_, -, -, -, hsize, -⟩ := (step_runs henv).1 t h
    exact hsize
  · rw [step_reset henv] at h
    rw [(Gives.finish (resetStep_answers _)).eq_of_next h]
  · rw [step_zeroClock henv] at h
    cases h
    rfl

/-- On a full bus every kind of boundary has a next state (R55). -/
theorem safe_of_fullMemory (hfull : s.fullMemory) : s.safe := by
  rcases boundary_cases s with hrun | ⟨nmi, irq, rest, vec, henv, hvec⟩ | ⟨rest, henv⟩ | ⟨rest, henv⟩
  · obtain ⟨i, rest, hdec⟩ := bytesAtPc_decode s
    exact ⟨_, (step_gives_instruction hrun hdec).full hfull⟩
  · exact ⟨_, (step_gives_interrupt henv hvec).full hfull⟩
  · exact ⟨_, (step_reset henv).trans ((Gives.finish (resetStep_answers { s with env := rest })).full hfull)⟩
  · exact ⟨_, step_zeroClock henv⟩

/-- A reset step answers, or stops before it writes anything at the first byte of its vector that the bus does not
back (R280). -/
theorem resetStep_cases (s : State) :
    (0xFFFD < s.memSize ∧ ∃ t, resetStep s = .ok t) ∨
    ∃ a : Word, resetStep s = .error (.busRange a s) ∧ s.memSize ≤ a.toNat ∧ (a = 0xFFFC ∨ a = 0xFFFD) := by
  have hlow : Config.vecReset.toNat = 0xFFFC := rfl
  have hhigh : (Config.vecReset + 1).toNat = 0xFFFD := rfl
  unfold resetStep
  split
  · exact .inr ⟨_, rfl, by omega, .inl rfl⟩
  · split
    · exact .inr ⟨_, rfl, by omega, .inr rfl⟩
    · exact .inl ⟨by omega, _, rfl⟩

end Sys2Proof.Machine

namespace Sys2Proof

open Machine

/-- Settles O10: a step at such a boundary runs sub-cycles from an empty bus history, and the counter advances with
each. -/
theorem cycAdvancesOncePerSubCycle : Obligations.CycAdvancesOncePerSubCycle := by
  intro s t hstep henv
  exact (mem_cyc_of_ran ((step_runs henv).1 t hstep)).2

/-- Settles O15: on a full bus the reset step answers its closed form; on a small one it stops before it writes. -/
theorem resetStepLoadsTheVector : Obligations.ResetStepLoadsTheVector := by
  intro s rest henv
  have hstep := step_reset henv
  refine ⟨fun hfull => ?_, fun hsmall => ?_⟩
  · have hnext := (Gives.finish (resetStep_answers { s with env := rest })).full hfull
    exact ⟨_, hstep.trans hnext, rfl, rfl, rfl, rfl, rfl, rfl, rfl⟩
  · rcases resetStep_cases { s with env := rest } with ⟨hbacked, -⟩ | ⟨a, herror, ha, hvec⟩
    · exact absurd hbacked (Nat.not_lt.2 hsmall)
    · exact ⟨a, by rw [hstep, herror]; rfl, ha, hvec⟩

/-- Settles O16: `State.reset` reads its program counter at the reset vector and has the values of R42. -/
theorem stateAfterReset : Obligations.StateAfterReset := ⟨rfl, rfl, rfl, rfl⟩

/-- Settles O17: the empty memory is canonical, and the default bus has 65536 bytes. -/
theorem invariantHoldsAtReset : Obligations.InvariantHoldsAtReset :=
  ⟨Memory.wf_nil, nofun, Nat.le_refl _⟩

/-- Settles O18: completed sub-cycles keep the invariant, and the two resets touch neither the memory nor its size. -/
theorem everyStepKeepsTheInvariant : Obligations.EveryStepKeepsTheInvariant := by
  intro s t hinv hstep
  rcases env_cases s with henv | ⟨rest, henv⟩ | ⟨rest, henv⟩
  · have hran : Ran { s with bus := [] } t := (step_runs henv).1 t hstep
    exact hran.inv hinv
  · rw [step_reset henv] at hstep
    obtain rfl := (Gives.finish (resetStep_answers _)).eq_of_next hstep
    exact hinv
  · rw [step_zeroClock henv] at hstep
    cases hstep
    exact hinv

/-- Settles O19: every kind of boundary answers on a full bus, and no step changes the size of the bus. -/
theorem fullMemoryNeverStops : Obligations.FullMemoryNeverStops := by
  intro s hfull
  exact ⟨safe_of_fullMemory hfull, fun t hstep => (step_memSize_of_next hstep).trans hfull⟩

/-- Settles O20: sub-cycles stop only with `BusRange`, after what they have completed; so does the reset step, which
has no sub-cycle; and the clock's reset does not stop. -/
theorem onlyBusRangeStopsAStep : Obligations.OnlyBusRangeStopsAStep := by
  intro s
  rcases env_cases s with henv | ⟨rest, henv⟩ | ⟨rest, henv⟩
  · obtain ⟨-, hfault, hrefused⟩ := step_runs henv
    refine ⟨fun f hf => ?_, hrefused⟩
    obtain ⟨a, t, rfl, ha, hran⟩ := hfault f hf
    obtain ⟨_, -, -, -, hsize, -⟩ := id hran
    exact ⟨a, t, rfl, ha, hsize, fun _ => mem_cyc_of_ran hran⟩
  · rw [step_reset henv]
    rcases resetStep_cases { s with env := rest } with ⟨-, t, hok⟩ | ⟨a, herror, ha, -⟩
    · rw [hok]
      exact ⟨nofun, nofun⟩
    · rw [herror]
      refine ⟨fun f hf => ?_, nofun⟩
      cases hf
      exact ⟨a, _, rfl, ha, rfl, fun hlines => by simp [henv] at hlines⟩
  · rw [step_zeroClock henv]
    exact ⟨nofun, nofun⟩

/-- Settles O21: the two transactions are decided by whether the bus backs the address. -/
theorem busTransactions : Obligations.BusTransactions := by
  intro a v s
  refine ⟨fun hout => ?_, fun hin => ?_⟩
  · have hnot : ¬ a.toNat < s.memSize := Nat.not_lt.2 hout
    exact ⟨if_neg hnot, if_neg hnot⟩
  · exact ⟨if_pos hin, s.mem.write a v, if_pos hin, Memory.read_write_same _ _ _,
      fun b hb => Memory.read_write_other _ _ hb⟩

end Sys2Proof

/-! SUPPORT AND CERTIFICATES. What a step that runs an instruction leaves: the program counter (10_state.md R27), the
bus history (40_execute_and_addressing.md R130) and the cycles (70_reset_and_hazards.md R295, R296). -/

namespace Sys2Proof.Machine

variable (s : State)

/-! ### The program counter after a branch -/

theorem branchEffect_pc_of_set (flag : Bool) (b : Byte) :
    (branchEffect flag b (s.fetched 2)).pc = if flag = true then s.pc + 2 + sext16 b else s.pc + 2 := rfl

theorem branchEffect_pc_of_clear (flag : Bool) (b : Byte) :
    (branchEffect (!flag) b (s.fetched 2)).pc = if flag = false then s.pc + 2 + sext16 b else s.pc + 2 := by
  cases flag <;> rfl

/-! ### The cycles of an instruction: its bytes and its history against the counts of R295 -/

theorem crossHistory_r_length (carry : Bool) : (crossHistory .r carry).length = if carry then 1 else 0 := by
  cases carry <;> rfl

/-- A reading instruction pays for the carry of its index (R296 c). -/
theorem readHistory_cycles (o : Operand) :
    o.mode.length + (readHistory o s).length = readCycles o + if (carries o s).getD false then 1 else 0 := by
  cases o with
  | imm | zp | zpx | zpy | abs | izx => rfl
  | abx w | aby w =>
    simp only [readHistory, resolveHistory, List.length_append, crossHistory_r_length, List.length_singleton,
      readCycles, Operand.mode, Mode.length]
    omega
  | izy b =>
    simp only [readHistory, resolveHistory, pointerHistory, List.length_append, crossHistory_r_length,
      List.length_cons, List.length_nil, readCycles, Operand.mode, Mode.length]
    omega

theorem writeHistory_cycles {o : Operand} (v : Byte) (h : o.mode ≠ .imm) :
    ∃ n, writeCycles o = some n ∧ o.mode.length + (writeHistory o v s).length = n := by
  cases o with
  | imm => exact absurd rfl h
  | _ => exact ⟨_, rfl, rfl⟩

theorem modifyHistory_cycles {o : Operand} (new : Byte) (h : modifyModes.contains o.mode = true) :
    ∃ n, modifyCycles o = some n ∧ o.mode.length + (modifyHistory o new s).length = n := by
  cases o with
  | zp | zpx | abs | abx => exact ⟨_, rfl, rfl⟩
  | _ => exact nomatch h

/-- A well-formed shift of memory has one of the modes of R89. -/
theorem modifyModes_of_shift {o : Operand} (h : (o.mode == .acc || modifyModes.contains o.mode) = true) :
    modifyModes.contains o.mode = true := by
  cases o with
  | zp | zpx | abs | abx => rfl
  | _ => exact nomatch h

/-- The bytes and the history of a legal instruction are its base count and its extra cycles (R296). -/
theorem history_cycles (i : Instr) (hwf : i.wellFormed = true) (hlegal : ∀ op, i ≠ .ill op) :
    ∃ n, baseCycles i = some n ∧ i.length + (history i s).length = n + extraCycles i s := by
  cases i with
  | lda o | ldx o | ldy o | and o | ora o | eor o | bit o => exact ⟨_, rfl, readHistory_cycles s o⟩
  | adc o | sbc o | cmp o | cpx o | cpy o => exact ⟨_, rfl, readHistory_cycles s o⟩
  | sta o | stx o | sty o =>
    have hmode : o.mode ≠ .imm := fun h => by simp [Instr.wellFormed, storeModes, h] at hwf
    exact writeHistory_cycles s _ hmode
  | inc o | dec o => exact modifyHistory_cycles s _ hwf
  | asl o | lsr o | rol o | ror o =>
    cases o with
    | acc => exact ⟨_, rfl, rfl⟩
    | mem o => exact modifyHistory_cycles s _ (modifyModes_of_shift hwf)
  | jmp o => cases o <;> exact ⟨_, rfl, rfl⟩
  | bcc b | bcs b | bne b | beq b | bpl b | bmi b | bvc b | bvs b =>
    exact ⟨2, rfl, congrArg (2 + ·) List.length_replicate⟩
  | ill op => exact absurd rfl (hlegal op)
  | _ => exact ⟨_, rfl, rfl⟩

end Sys2Proof.Machine

namespace Sys2Proof

open Machine

/-- Settles O7: the step answers the instruction's effect on the fetched state, whose `PC` is past the instruction. -/
theorem stepLeavesPcByTheTable : Obligations.StepLeavesPcByTheTable := by
  intro s i rest hfull hrun _ hdec
  refine ⟨_, step_instruction_of_fullMemory hfull hrun hdec, ?_⟩
  cases i with
  | jmp o => cases o <;> rfl
  | bcc b | bne b | bpl b | bvc b => exact branchEffect_pc_of_clear s _ b
  | bcs b | beq b | bmi b | bvs b => exact branchEffect_pc_of_set s _ b
  | asl o | lsr o | rol o | ror o => cases o <;> rfl
  | _ => rfl

/-- Settles O8: the effect of an instruction appends its history to that of the fetch; the effect of an interrupt entry
has its own. -/
theorem stepHasTheBusHistoryOfItsShape : Obligations.StepHasTheBusHistoryOfItsShape := by
  refine ⟨fun s i rest hfull hrun _ hdec => ?_, fun s vec nmi irq rest hfull henv hvec => ?_⟩
  · exact ⟨_, step_instruction_of_fullMemory hfull hrun hdec, effect_bus i _⟩
  · exact ⟨_, (step_gives_interrupt henv hvec).full hfull, rfl⟩

/-- Settles O9: the counter advances by the bytes fetched and the instruction's history, which are its base count and
its extra cycles. -/
theorem stepTakesBaseCyclesPlusExtra : Obligations.StepTakesBaseCyclesPlusExtra := by
  intro s i rest hfull hrun hwf hdec hlegal
  obtain ⟨n, hbase, hcycles⟩ := history_cycles (s.fetched i.length) i hwf hlegal
  refine ⟨_, n, step_instruction_of_fullMemory hfull hrun hdec, hbase, ?_⟩
  calc (effect i (s.fetched i.length)).cyc
      = s.cyc + i.length + (history i (s.fetched i.length)).length := effect_cyc i _
    _ = s.cyc + n + extraCycles i (s.fetched i.length) := by omega

end Sys2Proof

/-! SUPPORT AND CERTIFICATES. The stack, the exceptions and their return (42_stack.md, 46_jump_branch.md,
47_flags_system_nop.md, 60_exceptions.md). -/

namespace Sys2Proof.Machine

variable {s t h : State}

/-! ### The packed flags (10_state.md R29 to R32) -/

theorem packP_getLsbD (b : Bool) (f : Flags) (k : Nat) :
    (packP b f).getLsbD k = (decide (k < 8) && [f.n, f.v, true, b, f.d, f.i, f.z, f.c].getD (7 - k) false) := by
  rw [packP, BitVec.getLsbD_ofBoolListBE]
  rfl

theorem unpackP_packP (b : Bool) (f : Flags) : unpackP (packP b f) = f := by
  simp only [unpackP, packP_getLsbD]
  rfl

/-- Bit 4 of the packed byte is Break (R262). -/
theorem packP_getLsbD_4 (b : Bool) (f : Flags) : (packP b f).getLsbD 4 = b := packP_getLsbD b f 4

/-- Bit 5 of the packed byte is always set (R30). -/
theorem packP_getLsbD_5 (b : Bool) (f : Flags) : (packP b f).getLsbD 5 = true := packP_getLsbD b f 5

/-- Unpacking drops bits 5 and 4, and packing with Break sets both. -/
theorem packP_true_unpackP : ∀ v : Byte, packP true (unpackP v) = v ||| 0x30 := by
  decide +kernel

/-! ### The slots of the stack -/

theorem stackAddr_ne {a b : Byte} (hne : a ≠ b) : stackAddr a ≠ stackAddr b := mt stackAddr_inj.1 hne

theorem ne_stackAddr_of_hi {adr : Word} (hadr : hi adr ≠ 0x01) (b : Byte) : adr ≠ stackAddr b := by
  rintro rfl
  exact hadr (hi_join 0x01 b)

theorem pushFrame_read_high (brk : Bool) (pc : Word) (s : State) :
    (pushFrame brk pc s).read (stackAddr s.sp) = hi pc := by
  have hlow : stackAddr s.sp ≠ stackAddr (s.sp - 1) := stackAddr_ne (by bv_omega)
  have hflags : stackAddr s.sp ≠ stackAddr (s.sp - 2) := stackAddr_ne (by bv_omega)
  rw [pushFrame, Memory.read_write_other _ _ hflags, Memory.read_write_other _ _ hlow, Memory.read_write_same]

theorem pushFrame_read_low (brk : Bool) (pc : Word) (s : State) :
    (pushFrame brk pc s).read (stackAddr (s.sp - 1)) = lo pc := by
  have hflags : stackAddr (s.sp - 1) ≠ stackAddr (s.sp - 2) := stackAddr_ne (by bv_omega)
  rw [pushFrame, Memory.read_write_other _ _ hflags, Memory.read_write_same]

theorem pushFrame_read_flags (brk : Bool) (pc : Word) (s : State) :
    (pushFrame brk pc s).read (stackAddr (s.sp - 2)) = packP brk s.flags := by
  rw [pushFrame, Memory.read_write_same]

/-! ### Entry and return -/

/-- Lines that interrupt: the vector taken (60_exceptions.md R257). -/
theorem vector_of_taken {nmi irq : Bool} {f : Flags} (htaken : nmi = true ∨ irq = true ∧ f.i = false) :
    ∃ vec : Word, nmi = true ∧ vec = 0xFFFA ∨ nmi = false ∧ irq = true ∧ f.i = false ∧ vec = 0xFFFE := by
  cases nmi with
  | true => exact ⟨_, .inl ⟨rfl, rfl⟩⟩
  | false =>
    obtain ⟨hirq, hi⟩ := htaken.resolve_left nofun
    exact ⟨_, .inr ⟨rfl, hirq, hi, rfl⟩⟩

/-- The pulls of RTI from below a frame give back what was pushed, Break dropped (R266). -/
theorem effect_rti_of_frame {brk : Bool} {pc : Word} (hsp : h.sp = s.sp - 3)
    (hframe : ∀ k : Byte, k ∈ [(1 : Byte), 2, 3] →
      h.mem.read (stackAddr (s.sp - 3 + k)) = (pushFrame brk pc s).read (stackAddr (s.sp - 3 + k))) :
    (effect .rti h).pc = pc ∧ (effect .rti h).flags = s.flags ∧ (effect .rti h).sp = s.sp := by
  have hslot1 : s.sp - 3 + 1 = s.sp - 2 := by bv_omega
  have hslot2 : s.sp - 3 + 2 = s.sp - 1 := by bv_omega
  have hslot3 : s.sp - 3 + 3 = s.sp := by bv_omega
  have hflags : h.mem.read (stackAddr (h.sp + 1)) = packP brk s.flags := by
    rw [hsp, hframe 1 (by simp), hslot1, pushFrame_read_flags]
  have hlow : h.mem.read (stackAddr (h.sp + 2)) = lo pc := by
    rw [hsp, hframe 2 (by simp), hslot2, pushFrame_read_low]
  have hhigh : h.mem.read (stackAddr (h.sp + 3)) = hi pc := by
    rw [hsp, hframe 3 (by simp), hslot3, pushFrame_read_high]
  refine ⟨?_, ?_, ?_⟩
  · calc (effect .rti h).pc
        = join (h.mem.read (stackAddr (h.sp + 3))) (h.mem.read (stackAddr (h.sp + 2))) := rfl
      _ = pc := by rw [hhigh, hlow, join_hi_lo]
  · calc (effect .rti h).flags
        = unpackP (h.mem.read (stackAddr (h.sp + 1))) := rfl
      _ = s.flags := by rw [hflags, unpackP_packP]
  · calc (effect .rti h).sp
        = h.sp + 3 := rfl
      _ = s.sp := by rw [hsp, hslot3]

/-- The slot above the stack pointer holds the pushed flags of a frame just made. -/
theorem read_frame_flags {brk : Bool} {pc : Word} (hsp : t.sp = s.sp - 3) (hmem : t.mem = pushFrame brk pc s) :
    t.mem.read (stackAddr (t.sp + 1)) = packP brk s.flags := by
  have hslot : s.sp - 3 + 1 = s.sp - 2 := by bv_omega
  rw [hsp, hmem, hslot, pushFrame_read_flags]

end Sys2Proof.Machine

namespace Sys2Proof

open Machine

/-- Settles O11: on a full bus the step answers the entry through the NMI vector. -/
theorem nmiIsTakenAtTheBoundary : Obligations.NmiIsTakenAtTheBoundary := by
  intro s irq rest hfull henv
  exact (step_gives_interrupt henv (.inl ⟨rfl, rfl⟩)).full hfull

/-- Settles O12: on a full bus the step answers the entry through the IRQ vector, since `I` is clear. -/
theorem irqIsTakenWhenIIsClear : Obligations.IrqIsTakenWhenIIsClear := by
  intro s rest hfull henv hi
  exact (step_gives_interrupt henv (.inr ⟨rfl, rfl, hi, rfl⟩)).full hfull

/-- Settles O13: the three slots are different addresses, all in page 1. -/
theorem frameLiesInPageOne : Obligations.FrameLiesInPageOne := by
  intro s brk pc
  refine ⟨pushFrame_read_high brk pc s, pushFrame_read_low brk pc s, pushFrame_read_flags brk pc s, fun adr hadr => ?_⟩
  exact read_pushFrame_of_not_mem brk pc (by simp [ne_stackAddr_of_hi hadr])

/-- Settles O14: the entry leaves a frame of the interrupted `PC` and flags, from which RTI returns. -/
theorem rtiReturnsFromAnInterrupt : Obligations.RtiReturnsFromAnInterrupt := by
  intro s t h nmi irq rest henv htaken hstep hfull hsp hframe
  obtain ⟨vec, hvec⟩ := vector_of_taken htaken
  obtain rfl := (step_gives_interrupt henv hvec).eq_of_next hstep
  exact ⟨_, exec_of_fullMemory .rti hfull, effect_rti_of_frame hsp hframe⟩

/-- Settles O34: on a full bus each pull answers its effect. -/
theorem pullsReadTheSlotAbove : Obligations.PullsReadTheSlotAbove := by
  intro s hfull v s'
  exact ⟨exec_of_fullMemory .pla hfull, exec_of_fullMemory .plp hfull⟩

/-- Settles O35: a pull reads the slot the push wrote, and a push writes the slot the pull read. -/
theorem stackSymmetry : Obligations.StackSymmetry := by
  intro s hfull
  have hup : s.sp - 1 + 1 = s.sp := BitVec.sub_add_cancel s.sp 1
  have hpulled (v : Byte) : (s.mem.write (stackAddr s.sp) v).read (stackAddr (s.sp - 1 + 1)) = v := by
    rw [hup, Memory.read_write_same]
  have hfull' (i : Instr) : (effect i s).fullMemory := (effect_surroundings i s).1.trans hfull
  refine ⟨⟨_, _, exec_of_fullMemory .pha hfull, exec_of_fullMemory .pla (hfull' _), hpulled s.a, hup, ?_, ?_⟩,
    ⟨_, _, exec_of_fullMemory .php hfull, exec_of_fullMemory .plp (hfull' _), ?_, hup⟩,
    ⟨_, _, exec_of_fullMemory .plp hfull, exec_of_fullMemory .php (hfull' _), BitVec.add_sub_cancel s.sp 1, ?_⟩⟩
  · exact congrArg (setZN · s.flags) (hpulled s.a)
  · exact fun adr hadr => Memory.read_write_other _ _ hadr
  · exact (congrArg unpackP (hpulled _)).trans (unpackP_packP true s.flags)
  · exact (Memory.read_write_same _ _ _).trans (packP_true_unpackP _)

/-- Settles O50: on a full bus JSR answers its effect. -/
theorem jsrPushesAndJumps : Obligations.JsrPushesAndJumps := by
  intro w s hfull ret
  exact exec_of_fullMemory (.jsr w) hfull

/-- Settles O51: on a full bus RTS answers its effect. -/
theorem rtsPullsAndAddsOne : Obligations.RtsPullsAndAddsOne := by
  intro s hfull l h
  exact exec_of_fullMemory .rts hfull

/-- Settles O55: on a full bus BRK answers its effect. -/
theorem brkEntersTheHandler : Obligations.BrkEntersTheHandler := by
  intro s hfull ret
  exact exec_of_fullMemory .brk hfull

/-- Settles O56: on a full bus RTI answers its effect. -/
theorem rtiRestoresFlagsAndPc : Obligations.RtiRestoresFlagsAndPc := by
  intro s hfull p l h
  exact exec_of_fullMemory .rti hfull

/-- Settles O57: BRK leaves a frame of the address after the skipped byte and the flags, from which RTI returns. -/
theorem rtiReturnsFromBrk : Obligations.RtiReturnsFromBrk := by
  intro s t h hbrk hfull hsp hframe
  obtain rfl := eq_effect_of_exec hbrk
  exact ⟨_, exec_of_fullMemory .rti hfull, effect_rti_of_frame hsp hframe⟩

/-- Settles O58: the slot above `S` holds the packed flags, with Break set by BRK and clear in an interrupt entry. -/
theorem breakBitTellsBrkFromIrq : Obligations.BreakBitTellsBrkFromIrq := by
  intro s t
  refine ⟨fun hbrk => ?_, fun nmi irq rest henv htaken hstep => ?_⟩
  · obtain rfl := eq_effect_of_exec hbrk
    have hflags : (effect .brk s).mem.read (stackAddr ((effect .brk s).sp + 1)) = packP true s.flags :=
      read_frame_flags rfl rfl
    rw [hflags]
    exact ⟨packP_getLsbD_4 _ _, packP_getLsbD_5 _ _⟩
  · obtain ⟨vec, hvec⟩ := vector_of_taken htaken
    obtain rfl := (step_gives_interrupt henv hvec).eq_of_next hstep
    rw [read_frame_flags (s := s) (brk := false) (pc := s.pc) rfl rfl]
    exact ⟨packP_getLsbD_4 _ _, packP_getLsbD_5 _ _⟩

end Sys2Proof

/-! SUPPORT AND CERTIFICATES. The addressing modes (40_execute_and_addressing.md R106 to R120) and the instructions
whose next state is their effect as it stands: loads, stores, logic, INC and DEC, index registers, branches, flags,
no-operations. -/

namespace Sys2Proof.Machine

variable {s t : State}

/-! ### Resolvers on a full bus -/

theorem resolve_of_fullMemory (cls : Access) (o : Operand) (hfull : s.fullMemory) :
    resolve cls o s = .ok { s.elapse (resolveHistory cls o s) with
      ea := effAddr o s, pageCross := (carries o s).getD s.pageCross } :=
  (resolve_answers cls o s).full hfull

theorem resolve_ea (cls : Access) (o : Operand) (hfull : s.fullMemory) :
    ∃ r, resolve cls o s = .ok r ∧ r.ea = effAddr o s :=
  ⟨_, resolve_of_fullMemory cls o hfull, rfl⟩

theorem pageZeroWord_eq (m : Memory) (z : Byte) :
    pageZeroWord m z = join (m.read (join 0 (z + 1))) (m.read (join 0 z)) := by
  rw [pageZeroWord, zext16_eq_join, zext16_eq_join]

/-- Where an index can carry, the class decides the page-cross sub-cycle and nothing before it (R116). -/
theorem resolveHistory_of_carries {o : Operand} {carry : Bool} (h : carries o s = some carry) :
    ∃ before, ∀ cls, resolveHistory cls o s = before ++ crossHistory cls carry := by
  have hcarry : (carries o s).getD false = carry := by rw [h]; rfl
  cases o with
  | abx | aby => exact ⟨[], fun cls => hcarry ▸ rfl⟩
  | izy b => exact ⟨pointerHistory s.mem b, fun cls => hcarry ▸ rfl⟩
  | _ => exact nomatch h

/-! ### A branch -/

theorem branchEffect_eq (taken : Bool) (off : Byte) (s : State) :
    branchEffect taken off s =
      if taken then
        { s.elapse (if decide (hi (s.pc + sext16 off) ≠ hi s.pc) then [.idle, .idle] else [.idle]) with
          ea := s.pc + sext16 off, pc := s.pc + sext16 off }
      else { s with ea := s.pc + sext16 off } := by
  cases taken with
  | false => simp [branchEffect, branchExtra, elapse_nil]
  | true =>
    by_cases hpage : hi (s.pc + sext16 off) = hi s.pc <;>
      simp [branchEffect, branchExtra, hpage, List.replicate]

/-! ### Runs -/

theorem run_succ_of_step (k : Nat) (hstep : step s = .next t) :
    Host.Core.run core (k + 1) s = Host.Core.run core k t := by
  have hcore : core.step s = .next t := hstep
  simp only [Host.Core.run, hcore]

end Sys2Proof.Machine

namespace Sys2Proof

open Machine

/-- Settles O26: on a full bus each resolver sets `EA` to the effective address, which is the stated one for each
mode. -/
theorem resolversGiveTheEffectiveAddress : Obligations.ResolversGiveTheEffectiveAddress := by
  intro cls s hfull
  have hea {o : Operand} {a : Word} (h : effAddr o s = a) : ∃ r, resolve cls o s = .ok r ∧ r.ea = a :=
    h ▸ resolve_ea cls o hfull
  have hindexed {o : Operand} {n : Nat} (h : (effAddr o s).toNat = n) :
      ∃ r, resolve cls o s = .ok r ∧ r.ea.toNat = n := by
    obtain ⟨r, hr, hrea⟩ := resolve_ea cls o hfull
    exact ⟨r, hr, hrea ▸ h⟩
  refine ⟨fun b => hea rfl, fun b => hea (zext16_eq_join b), fun b => hea (zext16_eq_join _),
    fun b => hea (zext16_eq_join _), fun w => hea rfl, fun w => hindexed (add_zext16_toNat w s.x),
    fun w => hindexed (add_zext16_toNat w s.y), fun b => hea (pageZeroWord_eq s.mem _), fun b => hindexed ?_⟩
  rw [effAddr, add_zext16_toNat, pageZeroWord_eq]

/-- Settles O28: the three classes resolve alike but for the page-cross sub-cycle at the end of their history. -/
theorem pageCrossCycleByClass : Obligations.PageCrossCycleByClass := by
  intro o s hfull hsome
  obtain ⟨carry, hcarry⟩ := Option.isSome_iff_exists.1 hsome
  obtain ⟨before, hhistory⟩ := resolveHistory_of_carries hcarry
  have hresolve (cls : Access) := resolve_of_fullMemory cls o hfull
  simp only [hhistory, hcarry, Option.getD_some] at hresolve ⊢
  refine ⟨_, _, _, hresolve .r, hresolve .w, hresolve .rmw, rfl, ?_, rfl, rfl, rfl⟩
  cases carry <;> simp [crossHistory, Nat.add_assoc]

/-- Settles O29: on a full bus each load answers its effect. -/
theorem loadsPutTheOperandInTheRegister : Obligations.LoadsPutTheOperandInTheRegister := by
  intro o s hfull m f
  exact ⟨exec_of_fullMemory (.lda o) hfull, exec_of_fullMemory (.ldx o) hfull, exec_of_fullMemory (.ldy o) hfull⟩

/-- Settles O30: on a full bus each store answers its effect. -/
theorem storesWriteTheRegister : Obligations.StoresWriteTheRegister := by
  intro o s hfull
  exact ⟨exec_of_fullMemory (.sta o) hfull, exec_of_fullMemory (.stx o) hfull, exec_of_fullMemory (.sty o) hfull⟩

/-- Settles O31: the effect of STA keeps the effective address in `EA` and writes there. -/
theorem storedByteReadsBack : Obligations.StoredByteReadsBack := by
  intro o s t hexec
  obtain rfl := eq_effect_of_exec hexec
  exact ⟨Memory.read_write_same _ _ _, fun adr hadr => Memory.read_write_other _ _ hadr⟩

/-- Settles O36: on a full bus each logical instruction answers its effect. -/
theorem logicCombinesAWithTheOperand : Obligations.LogicCombinesAWithTheOperand := by
  intro o s hfull m zn
  exact ⟨exec_of_fullMemory (.and o) hfull, exec_of_fullMemory (.ora o) hfull, exec_of_fullMemory (.eor o) hfull⟩

/-- Settles O37: on a full bus BIT answers its effect. -/
theorem bitTestsTheOperand : Obligations.BitTestsTheOperand := by
  intro o s hfull m
  exact exec_of_fullMemory (.bit o) hfull

/-- Settles O45: on a full bus INC and DEC answer their effects. -/
theorem incDecModifyMemory : Obligations.IncDecModifyMemory := by
  intro o s hfull m zn
  exact ⟨exec_of_fullMemory (.inc o) hfull, exec_of_fullMemory (.dec o) hfull⟩

/-- Settles O46: each is an `IMP` instruction of two cycles, and its effect is the stated state. -/
theorem indexRegistersCount : Obligations.IndexRegistersCount := by
  intro s zn s'
  have hcount (i : Instr) (hmode : i.mode = some .imp) (hcycles : baseCycles i = some 2) :
      exec i s = .next (effect i s) := exec_of_imp_two_cycles hmode hcycles s
  exact ⟨hcount .inx rfl rfl, hcount .iny rfl rfl, hcount .dex rfl rfl, hcount .dey rfl rfl⟩

/-- Settles O53: each branch is `branchIf` of its flag, whose closed form is the stated state. -/
theorem branchesTestOneFlag : Obligations.BranchesTestOneFlag := by
  intro off s target cross after
  have hbranch (taken : Bool) : Host.Outcome.next (branchIf taken off s) = after taken := by
    rw [branchIf_eq, branchEffect_eq]
  exact ⟨hbranch _, hbranch _, hbranch _, hbranch _, hbranch _, hbranch _, hbranch _, hbranch _⟩

/-- Settles O54: each is an `IMP` instruction of two cycles, and its effect is the stated state. -/
theorem flagInstructionsWriteOneFlag : Obligations.FlagInstructionsWriteOneFlag := by
  intro s after
  have hflag (i : Instr) (hmode : i.mode = some .imp) (hcycles : baseCycles i = some 2) :
      exec i s = .next (effect i s) := exec_of_imp_two_cycles hmode hcycles s
  exact ⟨hflag .clc rfl rfl, hflag .sec rfl rfl, hflag .cld rfl rfl, hflag .sed rfl rfl, hflag .cli rfl rfl,
    hflag .sei rfl rfl, hflag .clv rfl rfl⟩

/-- Settles O59: NOP is one idle sub-cycle, and the fallback the open number of them. -/
theorem nopAndIllegalOpcodesDoNothing : Obligations.NopAndIllegalOpcodesDoNothing := by
  intro op s
  have hlength : (List.replicate (Config.illegalExtraCycles op) BusEvent.idle).length = Config.illegalExtraCycles op :=
    List.length_replicate
  refine ⟨exec_of_imp_two_cycles (i := .nop) rfl rfl s, ?_⟩
  rw [State.elapse, hlength]
  rfl

/-- Settles O60: by induction on the bound, the run stops after its first step or goes on from there. -/
theorem runStopsAtTheFirstBoundaryAfterAStep : Obligations.RunStopsAtTheFirstBoundaryAfterAStep := by
  intro stop fuel
  induction fuel with
  | zero => exact fun s t h => nomatch h
  | succ fuel ih =>
    intro s t hrun
    cases hstep : step s with
    | fault f => simp [runUntil, hstep] at hrun
    | refused r => simp [runUntil, hstep] at hrun
    | next u =>
      have hone : Host.Core.run core 1 s = .next u := run_succ_of_step 0 hstep
      cases hstop : stop u.view with
      | true =>
        obtain rfl : u = t := by simpa [runUntil, hstep, hstop] using hrun
        exact ⟨0, Nat.succ_pos fuel, hone, hstop, fun j v hj hj' => absurd hj (by omega)⟩
      | false =>
        have hrest : runUntil stop fuel u = .stopped t := by simpa [runUntil, hstep, hstop] using hrun
        obtain ⟨k, hk, hlast, hholds, hbefore⟩ := ih u t hrest
        refine ⟨k + 1, by omega, (run_succ_of_step (k + 1) hstep).trans hlast, hholds, fun j v hj hj' hv => ?_⟩
        match j, hj, hv with
        | 1, _, hv =>
          obtain rfl : u = v := Host.Outcome.next.inj (hone.symm.trans hv)
          exact hstop
        | j + 2, _, hv =>
          exact hbefore (j + 1) v (by omega) (by omega) ((run_succ_of_step (j + 1) hstep).symm.trans hv)

end Sys2Proof

/-! SUPPORT AND CERTIFICATES. Arithmetic, compares and shifts as arithmetic on numbers (44_arithmetic_compare.md,
45_incdec_shift.md section 3). -/

namespace Sys2Proof.Machine

variable {s t : State}

/-! ### Bytes and numbers -/

/-- `SetZN` of a byte given as a number (10_state.md R33). -/
theorem setZN_ofNat (k : Nat) (f : Flags) :
    setZN (BitVec.ofNat 8 k) f = { f with z := decide (k % 256 = 0), n := k.testBit 7 } := by
  have hz : (BitVec.ofNat 8 k == 0) = decide (k % 256 = 0) := by
    rw [beq_eq_decide, decide_eq_decide, ← BitVec.toNat_inj, BitVec.toNat_ofNat]
    rfl
  have hn : (BitVec.ofNat 8 k).getLsbD 7 = k.testBit 7 := BitVec.getLsbD_ofNat _ _ _
  rw [setZN, hz, hn]

theorem and_0x80_ne_zero : ∀ x : Byte, ((x &&& 0x80) != 0) = x.getLsbD 7 := by
  decide +kernel

theorem nat_and_0x80_ne_zero (n : Nat) : decide (n &&& 0x80 ≠ 0) = n.testBit 7 := by
  rw [show (0x80 : Nat) = 2 ^ 7 from rfl, Nat.and_two_pow]
  cases n.testBit 7 <;> rfl

theorem toNat_xor_0xFF (m : Byte) : (m ^^^ 0xFF).toNat = 255 - m.toNat := by
  have hnot : m ^^^ 0xFF = ~~~m := BitVec.xor_allOnes
  rw [hnot, BitVec.toNat_not]

/-! ### The adder (R180) -/

theorem exactSum_lt (a v : Byte) (c : Bool) : exactSum a v c < 512 := by
  have ha := a.isLt
  have hv := v.isLt
  have hc := c.toNat_lt
  unfold exactSum
  omega

/-- The carry is bit 8 of the exact sum. -/
theorem exactSum_carry (a v : Byte) (c : Bool) : decide (256 ≤ exactSum a v c) = (exactSum a v c).testBit 8 := by
  have hsum := exactSum_lt a v c
  rw [Nat.testBit_eq_decide_div_mod_eq, decide_eq_decide]
  omega

/-- The overflow formula reads bit 7 alone, which truncating the sum leaves. -/
theorem overflow_testBit (a v : Byte) (n : Nat) :
    ((a ^^^ BitVec.ofNat 8 n) &&& (v ^^^ BitVec.ofNat 8 n) &&& 0x80 != 0) =
      decide ((a.toNat ^^^ n) &&& (v.toNat ^^^ n) &&& 0x80 ≠ 0) := by
  rw [and_0x80_ne_zero, nat_and_0x80_ne_zero]
  simp only [BitVec.getLsbD_and, BitVec.getLsbD_xor, BitVec.getLsbD_ofNat, Nat.testBit_and, Nat.testBit_xor]
  rfl

/-- The whole of `AddWithCarry` on numbers (R180). -/
theorem addWithCarry_eq {v : Byte} {k : Nat} (hv : v.toNat = k) (s : State) :
    let sum := s.a.toNat + k + s.flags.c.toNat
    addWithCarry v s = { s with
      a := BitVec.ofNat 8 sum
      flags := { s.flags with
        c := sum.testBit 8, v := decide ((s.a.toNat ^^^ sum) &&& (k ^^^ sum) &&& 0x80 ≠ 0)
        z := decide (sum % 256 = 0), n := sum.testBit 7 } } := by
  subst hv
  rw [addWithCarry, addFlags, addResult, setZN_ofNat, overflow_testBit, exactSum_carry]
  rfl

/-- The overflow formula in terms of the signs. -/
theorem addFlags_v (a v : Byte) (f : Flags) :
    (addFlags a v f).v = (a.msb != (addResult a v f.c).msb && v.msb != (addResult a v f.c).msb) := by
  show ((a ^^^ addResult a v f.c) &&& (v ^^^ addResult a v f.c) &&& 0x80 != 0) = _
  rw [and_0x80_ne_zero]
  simp [BitVec.msb_eq_getLsbD_last]

theorem addFlags_c (a v : Byte) (f : Flags) : (addFlags a v f).c = true ↔ 256 ≤ exactSum a v f.c :=
  decide_eq_true_iff

/-- The signed reading of a byte by its sign bit. -/
theorem toInt_of_msb (b : Byte) :
    b.msb = true ∧ 128 ≤ b.toNat ∧ b.toInt = b.toNat - 256 ∨ b.msb = false ∧ b.toNat < 128 ∧ b.toInt = b.toNat := by
  rw [BitVec.msb_eq_decide, BitVec.toInt_eq_toNat_cond]
  by_cases h : 128 ≤ b.toNat
  · exact .inl ⟨decide_eq_true h, h, if_neg (by omega)⟩
  · exact .inr ⟨decide_eq_false h, by omega, if_pos (by omega)⟩

theorem toInt_xor_0xFF (m : Byte) : (m ^^^ 0xFF).toInt = -1 - m.toInt := by
  have hn := toNat_xor_0xFF m
  have hm := m.isLt
  rcases toInt_of_msb m with ⟨-, hmn, hmi⟩ | ⟨-, hmn, hmi⟩ <;>
  rcases toInt_of_msb (m ^^^ 0xFF) with ⟨-, hxn, hxi⟩ | ⟨-, hxn, hxi⟩ <;> omega

/-- The signs of the operands and of the result tell whether the signed sum fits (R189). -/
theorem signed_sum (a v : Byte) (c : Bool) :
    let r := addResult a v c
    let signed := a.toInt + v.toInt + c.toNat
    ((a.msb != r.msb && v.msb != r.msb) = true ↔ signed < -128 ∨ 127 < signed) ∧
    ((a.msb != r.msb && v.msb != r.msb) = false → r.toInt = signed) := by
  intro r signed
  have hr : r.toNat = (a.toNat + v.toNat + c.toNat) % 256 := BitVec.toNat_ofNat _ _
  have hc := c.toNat_lt
  have ha := a.isLt
  have hv := v.isLt
  rcases toInt_of_msb a with ⟨ha', han, hai⟩ | ⟨ha', han, hai⟩ <;>
  rcases toInt_of_msb v with ⟨hv', hvn, hvi⟩ | ⟨hv', hvn, hvi⟩ <;>
  rcases toInt_of_msb r with ⟨hr', hrn, hri⟩ | ⟨hr', hrn, hri⟩ <;>
    simp [ha', hv', hr', signed] <;> omega

/-- `C`, `V` and the signed result of the adder (R189). -/
theorem add_signed (a v : Byte) (f : Flags) :
    let signed := a.toInt + v.toInt + f.c.toNat
    ((addFlags a v f).v = true ↔ signed < -128 ∨ 127 < signed) ∧
    ((addFlags a v f).v = false → (addResult a v f.c).toInt = signed) := by
  rw [addFlags_v]
  exact signed_sum a v f.c

/-- Adding the inverted byte with the borrow complemented is subtracting (R183). -/
theorem addResult_xor_0xFF (a m : Byte) (c : Bool) :
    addResult a (m ^^^ 0xFF) c = a - m - BitVec.ofNat 8 (1 - c.toNat) := by
  have hm := m.isLt
  apply BitVec.eq_of_toNat_eq
  rw [addResult, exactSum, toNat_xor_0xFF]
  cases c <;> simp [BitVec.toNat_sub] <;> omega

theorem addResult_of_clear (a m : Byte) : addResult a m false = a + m := by
  apply BitVec.eq_of_toNat_eq
  rw [addResult, exactSum, BitVec.toNat_ofNat, BitVec.toNat_add]
  rfl

/-- Subtracting what was added restores the byte (R188). -/
theorem addResult_restores (a m : Byte) : addResult (addResult a m false) (m ^^^ 0xFF) true = a := by
  rw [addResult_of_clear, addResult_xor_0xFF]
  simp

/-- The subtraction borrows exactly when the addition carried (R188, 90_conflicts.md C2). -/
theorem exactSum_restores (a m : Byte) :
    decide (256 ≤ exactSum (addResult a m false) (m ^^^ 0xFF) true) = !decide (256 ≤ exactSum a m false) := by
  have ha := a.isLt
  have hm := m.isLt
  rw [addResult_of_clear, exactSum, exactSum, toNat_xor_0xFF, BitVec.toNat_add, ← decide_not, decide_eq_decide]
  simp only [Bool.toNat_true, Bool.toNat_false]
  omega

/-! ### Compares (R184) -/

theorem compareFlags_eq (r m : Byte) (f : Flags) :
    compareFlags r m f =
      { f with c := decide (m.toNat ≤ r.toNat), z := decide (r = m), n := (r - m).getLsbD 7 } := by
  have hz : (r - m == 0) = decide (r = m) := by
    rw [beq_eq_decide, decide_eq_decide]
    constructor
    · intro h; bv_omega
    · rintro rfl; exact BitVec.sub_self r
  rw [compareFlags, setZN, hz]

/-! ### Shifts (R199 to R202): the new byte and the carry as numbers -/

theorem shiftAsl_eq : ∀ (v : Byte) (c : Bool),
    shiftAsl v c = (BitVec.ofNat 8 (v.toNat * 2 % 256), v.toNat.testBit 7) := by decide +kernel

theorem shiftLsr_eq : ∀ (v : Byte) (c : Bool),
    shiftLsr v c = (BitVec.ofNat 8 (v.toNat / 2), v.toNat.testBit 0) := by decide +kernel

theorem shiftRol_eq : ∀ (v : Byte) (c : Bool),
    shiftRol v c = (BitVec.ofNat 8 (v.toNat * 2 % 256 + c.toNat), v.toNat.testBit 7) := by decide +kernel

theorem shiftRor_eq : ∀ (v : Byte) (c : Bool),
    shiftRor v c = (BitVec.ofNat 8 (v.toNat / 2 + c.toNat * 128), v.toNat.testBit 0) := by decide +kernel

variable {f : Shift} {k : Nat} {carry : Bool}

/-- A shift of the accumulator that leaves the byte `k` (R198). -/
theorem shiftEffect_acc (h : f s.a s.flags.c = (BitVec.ofNat 8 k, carry)) :
    shiftEffect f .acc s = { s.elapse [.idle] with
      a := BitVec.ofNat 8 k
      flags := { s.flags with c := carry, z := decide (k % 256 = 0), n := k.testBit 7 } } := by
  rw [shiftEffect, h, shiftFlags, setZN_ofNat]

/-- A shift of memory that leaves the byte `k` (R198). -/
theorem shiftEffect_mem {o : Operand} (h : f (s.mem.read (effAddr o s)) s.flags.c = (BitVec.ofNat 8 k, carry)) :
    shiftEffect f (.mem o) s = { s.afterModify o (BitVec.ofNat 8 k) with
      flags := { s.flags with c := carry, z := decide (k % 256 = 0), n := k.testBit 7 } } := by
  rw [shiftEffect, h, shiftFlags, setZN_ofNat]

end Sys2Proof.Machine

namespace Sys2Proof

open Machine

/-- Settles O38: on a full bus ADC answers its effect, and the adder is the stated arithmetic of the exact sum. -/
theorem adcAddsWithCarry : Obligations.AdcAddsWithCarry := by
  intro o s hfull m sum
  have hadd := addWithCarry_eq (v := m) rfl (s.afterRead o)
  exact (exec_of_fullMemory (.adc o) hfull).trans (congrArg _ hadd)

/-- Settles O39: on a full bus SBC answers its effect, the adder's with the operand inverted. -/
theorem sbcIsAdcOfTheInvertedOperand : Obligations.SbcIsAdcOfTheInvertedOperand := by
  intro o s hfull m sum
  have hadd := addWithCarry_eq (toNat_xor_0xFF m) (s.afterRead o)
  exact (exec_of_fullMemory (.sbc o) hfull).trans (congrArg _ hadd)

/-- Settles O40: the flags of ADC are the adder's, read as an unsigned and as a signed sum. -/
theorem adcFlagsReportUnsignedAndSignedOverflow : Obligations.AdcFlagsReportUnsignedAndSignedOverflow := by
  intro o s t hexec m signed
  obtain rfl := eq_effect_of_exec hexec
  exact ⟨addFlags_c s.a m s.flags, add_signed s.a m s.flags⟩

/-- Settles O41: the inverted operand is 255 minus it as an unsigned number and -1 minus it as a signed one. -/
theorem sbcSubtractsWithBorrow : Obligations.SbcSubtractsWithBorrow := by
  intro o s t hexec m borrow signed
  obtain rfl := eq_effect_of_exec hexec
  have hm := m.isLt
  have hc := s.flags.c.toNat_lt
  have hcarry : (addFlags s.a (m ^^^ 0xFF) s.flags).c = true ↔ 256 ≤ s.a.toNat + (255 - m.toNat) + s.flags.c.toNat := by
    rw [addFlags_c, exactSum, toNat_xor_0xFF]
  have hsigned : s.a.toInt + (m ^^^ 0xFF).toInt + s.flags.c.toNat = signed := by
    rw [toInt_xor_0xFF]
    omega
  refine ⟨addResult_xor_0xFF s.a m s.flags.c, hcarry.trans (by omega), ?_⟩
  exact hsigned ▸ (add_signed s.a (m ^^^ 0xFF) s.flags).1

/-- Settles O42: with the carry set the subtraction is exact, and it borrows exactly when the addition carried. -/
theorem adcThenSbcRestoresA : Obligations.AdcThenSbcRestoresA := by
  intro o o' s t u w hclear hadc hsec hbyte hsbc
  obtain rfl := eq_effect_of_exec hadc
  obtain rfl := eq_effect_of_exec hsec
  obtain rfl := eq_effect_of_exec hsbc
  refine ⟨?_, ?_⟩
  · calc (effect (.sbc o') (effect .sec (effect (.adc o) s))).a
        = addResult (addResult s.a (operandByte o s) s.flags.c)
            (operandByte o' (effect .sec (effect (.adc o) s)) ^^^ 0xFF) true := rfl
      _ = s.a := by rw [hbyte, hclear, addResult_restores]
  · calc (effect (.sbc o') (effect .sec (effect (.adc o) s))).flags.c
        = decide (256 ≤ exactSum (addResult s.a (operandByte o s) s.flags.c)
            (operandByte o' (effect .sec (effect (.adc o) s)) ^^^ 0xFF) true) := rfl
      _ = !decide (256 ≤ exactSum s.a (operandByte o s) s.flags.c) := by rw [hbyte, hclear, exactSum_restores]

/-- Settles O44: on a full bus each compare answers its effect. -/
theorem comparesSetCarryZeroNegative : Obligations.ComparesSetCarryZeroNegative := by
  intro o s hfull m cmp
  have hcmp (r : Byte) : compareFlags r m s.flags = cmp r := compareFlags_eq r m s.flags
  refine ⟨?_, ?_, ?_⟩
  · exact hcmp s.a ▸ exec_of_fullMemory (.cmp o) hfull
  · exact hcmp s.x ▸ exec_of_fullMemory (.cpx o) hfull
  · exact hcmp s.y ▸ exec_of_fullMemory (.cpy o) hfull

/-- Settles O47: a shift of the accumulator answers its effect on any bus. -/
theorem accumulatorShifts : Obligations.AccumulatorShifts := by
  intro s v c after
  have hshift {f : Shift} {k : Nat} {carry : Bool} (h : f s.a s.flags.c = (BitVec.ofNat 8 k, carry)) :
      Host.Outcome.next (shiftEffect f .acc s) = after k carry := congrArg _ (shiftEffect_acc h)
  exact ⟨hshift (shiftAsl_eq _ _), hshift (shiftLsr_eq _ _), hshift (shiftRol_eq _ _), hshift (shiftRor_eq _ _)⟩

/-- Settles O48: on a full bus each shift of memory answers its effect. -/
theorem memoryShifts : Obligations.MemoryShifts := by
  intro o s hfull v c after
  have hshift {f : Shift} {k : Nat} {carry : Bool}
      (h : f (s.mem.read (effAddr o s)) s.flags.c = (BitVec.ofNat 8 k, carry)) :
      Host.Outcome.next (shiftEffect f (.mem o) s) = after k carry := congrArg _ (shiftEffect_mem h)
  exact ⟨(exec_of_fullMemory _ hfull).trans (hshift (shiftAsl_eq _ _)),
    (exec_of_fullMemory _ hfull).trans (hshift (shiftLsr_eq _ _)),
    (exec_of_fullMemory _ hfull).trans (hshift (shiftRol_eq _ _)),
    (exec_of_fullMemory _ hfull).trans (hshift (shiftRor_eq _ _))⟩

end Sys2Proof

/-! SUPPORT AND CERTIFICATES. ADC and SBC do not depend on the decimal flag (44_arithmetic_compare.md R181). On a bus of
any size: reading an operand looks at no flag, so with other flags it answers the same but for them. -/

namespace Sys2Proof.Machine

variable (f : Flags)

/-- The state with other flags. -/
def State.withFlags (s : State) : State := { s with flags := f }

/-- What is answered with a state, with other flags in it. -/
def pairWithFlags {α : Type} (r : α × State) : α × State := (r.1, r.2.withFlags f)

/-- Whatever `e` answers, `e'` answers changed by `g`. -/
def Follows {α : Type} (g : α → α) (e e' : Except Fault α) : Prop := ∀ r, e = .ok r → e' = .ok (g r)

namespace Follows

variable {α β : Type} {g : α → α} {g' : β → β}

theorem ok {r r' : α} (hr : r' = g r) : Follows g (.ok r) (.ok r') := fun _ h => by cases h; rw [hr]

theorem bind {e e' : Except Fault α} {k k' : α → Except Fault β} (h : Follows g e e')
    (hk : ∀ r, Follows g' (k r) (k' (g r))) : Follows g' (e >>= k) (e' >>= k') := by
  intro y hy
  cases e with
  | error => exact nomatch hy
  | ok r => rw [h r rfl]; exact hk r y hy

end Follows

variable (s : State)

theorem memRead_withFlags (a : Word) : Follows (pairWithFlags f) (memRead a s) (memRead a (s.withFlags f)) := by
  intro r h
  unfold memRead at h ⊢
  split at h
  · cases h
    exact if_pos ‹_›
  · exact nomatch h

theorem readPointer_withFlags (z : Byte) :
    Follows (pairWithFlags f) (readPointer z s) (readPointer z (s.withFlags f)) :=
  (memRead_withFlags f s _).bind fun r => (memRead_withFlags f r.2 _).bind fun _ => .ok rfl

theorem indexBase_withFlags (cls : Access) (base : Word) (r : Byte) :
    indexBase cls base r (s.withFlags f) = (indexBase cls base r s).withFlags f := by
  rw [indexBase_eq, indexBase_eq]
  rfl

theorem resolve_withFlags (cls : Access) (o : Operand) :
    Follows (State.withFlags f) (resolve cls o s) (resolve cls o (s.withFlags f)) := by
  cases o with
  | imm | zp | zpx | zpy | abs => exact .ok rfl
  | abx w => exact .ok (indexBase_withFlags f s cls w s.x)
  | aby w => exact .ok (indexBase_withFlags f s cls w s.y)
  | izx b => exact (readPointer_withFlags f (idle s) (b + s.x)).bind fun _ => .ok rfl
  | izy b => exact (readPointer_withFlags f s b).bind fun r => .ok (indexBase_withFlags f r.2 cls r.1 r.2.y)

theorem readOperand_withFlags (o : Operand) :
    Follows (pairWithFlags f) (readOperand o s) (readOperand o (s.withFlags f)) := by
  have hread (u : State) : Follows (pairWithFlags f) (readEA u) (readEA (u.withFlags f)) :=
    (memRead_withFlags f u u.ea).bind fun _ => .ok rfl
  cases o with
  | imm => exact .ok rfl
  | _ => exact (resolve_withFlags f s .r _).bind hread

end Sys2Proof.Machine

namespace Sys2Proof

open Machine

/-- Settles O43: the operand read with `D` changed answers the same but for `D`, and the adder passes `D` through. -/
theorem decimalFlagHasNoEffect : Obligations.DecimalFlagHasNoEffect := by
  intro o s t d sd
  have hadd {inverted : Byte → Byte}
      (h : finish (readOperand o s >>= fun r => .ok (addWithCarry (inverted r.1) r.2)) = .next t) :
      finish (readOperand o sd >>= fun r => .ok (addWithCarry (inverted r.1) r.2)) =
        .next { t with flags := { t.flags with d := d } } := by
    cases hread : readOperand o s with
    | error => rw [hread] at h; exact nomatch h
    | ok r =>
      obtain rfl := (readOperand_answers o s).eq_of_ok hread
      have hd : readOperand o sd = .ok (operandByte o s, (s.afterRead o).withFlags sd.flags) :=
        readOperand_withFlags sd.flags s o _ hread
      rw [hread] at h
      cases h
      rw [hd]
      rfl
  exact ⟨hadd (inverted := id), hadd (inverted := (· ^^^ 0xFF))⟩

end Sys2Proof
